-- ==== Sys2Proof/Word.lean ====
section
/-!
DEFINITION. The words of the ARITH codec core: every register is 64 bits wide (spec/10_state.md, section 3), the streams of
the host are bytes (spec/47_host_framing.md), and the operand and result slots are two files of sixteen registers (R31, R32).
-/

namespace Sys2Proof

/-- A 64-bit register. -/
abbrev Word := BitVec 64

/-- A byte of a compressed stream. -/
abbrev Byte := BitVec 8

/-- Sixteen registers of 64 bits (NSLOT of R6). -/
abbrev Slots := Vector Word 16

end Sys2Proof
end

