-- ==== Sys2Proof/Machine/Bits.lean ====
section
/-!
DEFINITION. Bit fields and signed readings of words (R8, R9 of spec/00_scope.md). Integers are mathematical integers; no
operation here wraps unless it says so.
-/

namespace Sys2Proof.Machine

/-- The field `v[lo+n-1:lo]` of `n` bits, read unsigned (R8); a field of width 0 is 0. -/
def field (v : Word) (n lo : Nat) : Nat := v.toNat / 2 ^ lo % 2 ^ n

/-- `sint_n` of R9: the `n`-bit pattern `f` read as two's complement; for n = 0 the result is 0. -/
def sint (n f : Nat) : Int :=
  if n = 0 then 0 else if f < 2 ^ (n - 1) then (f : Int) else (f : Int) - 2 ^ n

/-- `bits_64` of R9: the pattern of an integer, taken modulo 2^64. -/
def bits64 (n : Int) : Word := BitVec.ofInt 64 n

/-- `bits_8` of R9. -/
def bits8 (n : Int) : Byte := BitVec.ofInt 8 n

end Sys2Proof.Machine
end

