-- ==== Sys2Proof/Syntax.lean ====
section
/-!
DEFINITION. The commands of the block, one constructor per row of spec/opcode_table.json (R81 of spec/30_encoding.md), and
the operations of the host's programs (R98, R99).
-/

namespace Sys2Proof

/-- The 23 commands of R81. `w` is the field WIDTH and `l` the field LSB of the command word (R82); the commands that show
"0" in such a column of R81 have no such argument, since the field must be 0 there (R84). -/
inductive Instr where
  | nop
  | cscFwd
  | cscInv
  | blkFwd
  | blkInv
  | dctFwd
  | dctInv
  | qa
  | qbcd
  | qc
  | dqa
  | dqbcd
  | dqc
  | fitsu (w : Nat)
  | fitss (w : Nat)
  | getu (w l : Nat)
  | gets (w l : Nat)
  | newu (w l : Nat)
  | news (w l : Nat)
  | cwPack
  | cwUnpack
  | encBlock
  | decBlock
deriving DecidableEq, Repr

/-- The registers a host operation can name (R98), with the map of R51. -/
inductive Reg where
  | cmd
  | status
  | ctrl
  | a (i : Fin 16)
  | z (i : Fin 16)
deriving DecidableEq, Repr

/-- One operation of a host program. `read` and `write` are the accesses `MemRead(addr, bytes)` and
`MemWrite(addr, bytes, value)` of R11 at a byte address, of any width, so that the accesses R52 and R53 refuse can be
written too; `poll` and `check` are the pseudo-operations of R99 that branch on what they read. WR, RD and EXEC are built
from these in Machine/HostProgram.lean. -/
inductive HostOp where
  | read (addr bytes : Nat)
  | write (addr bytes : Nat) (value : Word)
  | poll
  | check
deriving DecidableEq, Repr

end Sys2Proof
end

