-- ==== Sys2Proof/WellFormed.lean ====
section
/-!
DEFINITION. Well-formed commands: the fields WIDTH and LSB are 7 bits wide (R80 of spec/30_encoding.md), so each lies in
0 to 127 (R82, R96). A width or offset that fails the contract of R176 is well formed: it faults when it runs.
-/

namespace Sys2Proof

/-- A value of a 7-bit field (R80). -/
def fieldOk (n : Nat) : Bool := n < 128

/-- The command can be written as a command word (R96). -/
def Instr.wellFormed : Instr → Bool
  | .nop => true
  | .cscFwd => true
  | .cscInv => true
  | .blkFwd => true
  | .blkInv => true
  | .dctFwd => true
  | .dctInv => true
  | .qa => true
  | .qbcd => true
  | .qc => true
  | .dqa => true
  | .dqbcd => true
  | .dqc => true
  | .fitsu w => fieldOk w
  | .fitss w => fieldOk w
  | .getu w l => fieldOk w && fieldOk l
  | .gets w l => fieldOk w && fieldOk l
  | .newu w l => fieldOk w && fieldOk l
  | .news w l => fieldOk w && fieldOk l
  | .cwPack => true
  | .cwUnpack => true
  | .encBlock => true
  | .decBlock => true

end Sys2Proof
end

