-- ==== Sys2Proof/Decode.lean ====
section
/-!
DEFINITION. The command decoder (R80 to R86 of spec/30_encoding.md), total on every 64-bit word and rejecting by name, and
the encoder (R96), written from the same table.
-/

namespace Sys2Proof

/-- Why a command word is ILLEGAL (R251 of spec/60_exceptions.md). The block records one cause for all four; the names are
the model's own. -/
inductive IllegalReason where
  /-- a bit of 63:22 is set (R83) -/
  | reservedBits
  /-- the OPC is not in the table (R85) -/
  | undefinedOpc
  /-- WIDTH is not 0 where the row requires 0 (R84) -/
  | widthNotZero
  /-- LSB is not 0 where the row requires 0 (R84) -/
  | lsbNotZero
deriving DecidableEq, Repr

/-- The verdict of the decoder (R86). -/
inductive Decoded where
  | instr (i : Instr)
  | illegal (r : IllegalReason)
deriving DecidableEq, Repr

/-- A row of R81 with "0" in the columns WIDTH and LSB (R84): the width is checked first, as in R86. -/
def bareRow (i : Instr) (w l : Nat) : Decoded :=
  if w ≠ 0 then .illegal .widthNotZero else if l ≠ 0 then .illegal .lsbNotZero else .instr i

/-- A row of R81 with "w" in the column WIDTH and "0" in the column LSB. -/
def widthRow (i : Nat → Instr) (w l : Nat) : Decoded :=
  if l ≠ 0 then .illegal .lsbNotZero else .instr (i w)

/-- The opcode map of R81, with the field requirements of R84. -/
def decodeFields (opc w l : Nat) : Decoded :=
  match opc with
  | 0x00 => bareRow .nop w l
  | 0x01 => bareRow .cscFwd w l
  | 0x02 => bareRow .cscInv w l
  | 0x03 => bareRow .blkFwd w l
  | 0x04 => bareRow .blkInv w l
  | 0x05 => bareRow .dctFwd w l
  | 0x06 => bareRow .dctInv w l
  | 0x10 => bareRow .qa w l
  | 0x11 => bareRow .qbcd w l
  | 0x12 => bareRow .qc w l
  | 0x13 => bareRow .dqa w l
  | 0x14 => bareRow .dqbcd w l
  | 0x15 => bareRow .dqc w l
  | 0x20 => widthRow .fitsu w l
  | 0x21 => widthRow .fitss w l
  | 0x22 => .instr (.getu w l)
  | 0x23 => .instr (.gets w l)
  | 0x24 => .instr (.newu w l)
  | 0x25 => .instr (.news w l)
  | 0x30 => bareRow .cwPack w l
  | 0x31 => bareRow .cwUnpack w l
  | 0x40 => bareRow .encBlock w l
  | 0x41 => bareRow .decBlock w l
  | _ => .illegal .undefinedOpc

/-- `decode` of R86: OPC is bits 7:0, WIDTH bits 14:8, LSB bits 21:15, and bits 63:22 must be 0. -/
def decode (cmd : Word) : Decoded :=
  if Machine.field cmd 42 22 ≠ 0 then .illegal .reservedBits
  else decodeFields (Machine.field cmd 8 0) (Machine.field cmd 7 8) (Machine.field cmd 7 15)

/-- The OPC of a command (R81). -/
def Instr.opc : Instr → Nat
  | .nop => 0x00
  | .cscFwd => 0x01
  | .cscInv => 0x02
  | .blkFwd => 0x03
  | .blkInv => 0x04
  | .dctFwd => 0x05
  | .dctInv => 0x06
  | .qa => 0x10
  | .qbcd => 0x11
  | .qc => 0x12
  | .dqa => 0x13
  | .dqbcd => 0x14
  | .dqc => 0x15
  | .fitsu _ => 0x20
  | .fitss _ => 0x21
  | .getu _ _ => 0x22
  | .gets _ _ => 0x23
  | .newu _ _ => 0x24
  | .news _ _ => 0x25
  | .cwPack => 0x30
  | .cwUnpack => 0x31
  | .encBlock => 0x40
  | .decBlock => 0x41

/-- The value of the field WIDTH in a command's word (R81, R96). -/
def Instr.widthField : Instr → Nat
  | .fitsu w => w
  | .fitss w => w
  | .getu w _ => w
  | .gets w _ => w
  | .newu w _ => w
  | .news w _ => w
  | .nop => 0
  | .cscFwd => 0
  | .cscInv => 0
  | .blkFwd => 0
  | .blkInv => 0
  | .dctFwd => 0
  | .dctInv => 0
  | .qa => 0
  | .qbcd => 0
  | .qc => 0
  | .dqa => 0
  | .dqbcd => 0
  | .dqc => 0
  | .cwPack => 0
  | .cwUnpack => 0
  | .encBlock => 0
  | .decBlock => 0

/-- The value of the field LSB in a command's word (R81, R96). -/
def Instr.lsbField : Instr → Nat
  | .getu _ l => l
  | .gets _ l => l
  | .newu _ l => l
  | .news _ l => l
  | .fitsu _ => 0
  | .fitss _ => 0
  | .nop => 0
  | .cscFwd => 0
  | .cscInv => 0
  | .blkFwd => 0
  | .blkInv => 0
  | .dctFwd => 0
  | .dctInv => 0
  | .qa => 0
  | .qbcd => 0
  | .qc => 0
  | .dqa => 0
  | .dqbcd => 0
  | .dqc => 0
  | .cwPack => 0
  | .cwUnpack => 0
  | .encBlock => 0
  | .decBlock => 0

/-- The command word `(l << 15) | (w << 8) | OPC` of R96; the three fields are disjoint, so the sum is the or. -/
def encode (i : Instr) : Word :=
  BitVec.ofNat 64 (i.lsbField * 2 ^ 15 + i.widthField * 2 ^ 8 + i.opc)

/-- The instruction the decoder reads from the low `nbits` bits of `w`, all higher bits being 0. A command is one 64-bit
value (R80), so there is no order of bytes or words to lay out. -/
def decodeTableWord (nbits w : Nat) : Option Instr :=
  match decode (BitVec.ofNat 64 (w % 2 ^ nbits)) with
  | .instr i => some i
  | .illegal _ => none

end Sys2Proof
end

