-- ==== Sys2Proof/Config.lean ====
section
/-!
DEFINITION. What one implementation fixes (R6 of spec/00_scope.md) and the free values the spec leaves open
(spec/93_implementation_defined.md). An opaque constant has no body: no proof can learn its value.
-/

namespace Sys2Proof.Config

/-- QDEN of R6 and R94: a QV slot holds a numerator over this denominator. -/
def qden : Nat := 521220000000

/-- PACK_W of R6: the width of the BitPacker's word. -/
def packWidth : Nat := 64

/-- BASE divided by 512; open (U5 of spec/93_implementation_defined.md, log 9). -/
opaque windowIndex : Nat

/-- BASE of R6 and R50: any multiple of 512 (log 9). -/
def base : Nat := 512 * windowIndex

/-- The free value a read of a result slot gives while BUSY = 1 (R32, U3): applied to the counter `draws` of the state, so
two such reads need not agree (log 8). -/
opaque busyRead : Nat → Word

/-- The free choice of the agent that moves next where both could and the schedule is empty (R20), as a fair sequence: before
the `n`-th time it goes to the datapath it goes to the host `latency n` times. Any number may stand there, and a number does,
so every such sequence is weakly fair to the datapath and every weakly fair one is of this form (R287, R290, U4, log 2,
log 13). -/
opaque latency : Nat → Nat

end Sys2Proof.Config
end

