-- ==== Sys2Proof/Machine/State.lean ====
section
/-!
DEFINITION. The state of the block (spec/10_state.md, section 7), the host agent that drives it, the schedule of the
agents' turns, and the state after reset.
-/

namespace Sys2Proof.Machine

/-- The causes of R250 (spec/60_exceptions.md), codes 0 to 4 in this order. -/
inductive Cause where
  | none
  | illegal
  | contract
  | overflow
  | range
deriving DecidableEq, Repr

/-- The fields of STATUS (R25). The reserved bits 3:2 and 63:20 read 0 and are stored nowhere (log 17). -/
structure Status where
  busy      : Bool
  fault     : Bool
  cause     : Cause
  faultOpc  : BitVec 8
  faultInfo : BitVec 4
deriving DecidableEq, Repr

/-- Why a host access was refused (R52, R53, R285, R286). -/
inductive RefusedAccess where
  /-- the address lies outside BASE to BASE + 0x1FF (log 7) -/
  | outsideWindow
  /-- not a 64-bit access (R52) -/
  | narrow
  /-- the offset is not a multiple of 8 (R52) -/
  | misaligned
  /-- an aligned access to an offset of R51 that holds no register (R53) -/
  | unmapped
  /-- a write to CMD while BUSY = 1 (R28, R285) -/
  | cmdWriteBusy
  /-- a write to an operand slot while BUSY = 1 (R31, R285) -/
  | operandWriteBusy
deriving DecidableEq, Repr

/-- What the host agent may still do. `refused` is the refusal mark of R285 and R286, which the state carries for the rest
of the run; `failed` is a host program that CHECK stopped with an error (R99). -/
inductive HostMode where
  | running
  | refused (why : RefusedAccess)
  | failed
deriving DecidableEq, Repr

/-- The host agent (R20): the operations still to do, oldest first, and the values it has read, oldest first (the
observation of R291). The model's own form of the host (log 1). -/
structure HostAgent where
  program : List HostOp
  reads   : List Word
  mode    : HostMode
deriving DecidableEq, Repr

/-- A choice of who moves next (R20), or an event of the platform: the external reset of R280, and the external reset in
the middle of a host access, to which the spec gives no step (U15). The external reset ends a run and begins the next (R282);
`next` is the host program of the run it begins. A host that goes on after the reset with what it had left to do is the turn
whose `next` is just that (log 5). -/
inductive Turn where
  | host
  | datapath
  | reset (next : List HostOp)
  | resetDuringAccess
deriving DecidableEq, Repr

/-- The whole machine. `latch`, `status`, `a` and `z` are the block's registers (R24 to R32). The rest is the model's own:
the host agent (log 1); the turns already chosen, oldest first (log 2); the number of unspecified values read (log 8); how
many times the free choice of the agent has gone to the datapath, and how many times to the host since (log 2, log 13). -/
structure State where
  latch    : Word
  status   : Status
  a        : Slots
  z        : Slots
  host     : HostAgent
  schedule : List Turn
  draws    : Nat
  grants   : Nat
  passed   : Nat
deriving DecidableEq, Repr

/-- How the machine can stop. The block's own faults are no stops: they are recorded in STATUS and the machine goes on
(R253, R257). -/
inductive Fault where
  /-- Raised by a turn `resetDuringAccess`, the external reset asserted in the middle of a host access: the spec gives the
  model no step for it (U15 of spec/93_implementation_defined.md, treatment "stuck"). Safe (log 10). -/
  | resetDuringAccess
deriving DecidableEq, Repr

/-- Why a command has no meaning in the model. -/
inductive Refusal where
  /-- Raised by an arm of `exec` whose command has no meaning yet; no arm raises it, every command has its meaning.
  Safe. -/
  | notModelled (mnemonic : String)
deriving DecidableEq, Repr

/-- STATUS = 0 (R33). -/
def Status.reset : Status :=
  { busy := false, fault := false, cause := .none, faultOpc := 0, faultInfo := 0 }

/-- Every slot 0 (R33). -/
def slotsZero : Slots := #v[0, 0, 0, 0, 0, 0, 0, 0, 0, 0, 0, 0, 0, 0, 0, 0]

/-- The machine right after reset: every register of the block as R33 says. The host has nothing to do, no turn is chosen
and no free value or choice is taken (DESIGN CHOICE, log 12). -/
def State.reset : State :=
  { latch := 0
    status := Status.reset
    a := slotsZero
    z := slotsZero
    host := { program := [], reads := [], mode := .running }
    schedule := []
    draws := 0
    grants := 0
    passed := 0 }

end Sys2Proof.Machine
end

