-- ==== Sys2Proof/Machine/Flags.lean ====
section
/-!
DEFINITION. The block has no condition codes (R23 of spec/10_state.md). Its flags are the fields of STATUS: the codes of
R250, the word a read of STATUS gives (R25), and the launch premises of R284 with the operand slots of R88.
-/

namespace Sys2Proof.Machine

/-- The cause codes of R250. -/
def causeCode : Cause → Nat
  | .none => 0
  | .illegal => 1
  | .contract => 2
  | .overflow => 3
  | .range => 4

/-- The value of a read of STATUS (R25): BUSY in bit 0, FAULT in bit 1, CAUSE in 7:4, FAULT_OPC in 15:8, FAULT_INFO in
19:16, every other bit 0. -/
def statusWord (st : Status) : Word :=
  BitVec.ofNat 64
    (st.busy.toNat + st.fault.toNat * 2 ^ 1 + causeCode st.cause * 2 ^ 4 + st.faultOpc.toNat * 2 ^ 8
      + st.faultInfo.toNat * 2 ^ 16)

/-- IDLE of R284. -/
def idle (s : State) : Bool := !s.status.busy

/-- NOFAULT of R284. -/
def noFault (s : State) : Bool := !s.status.fault

/-- The operand slots a command reads (R88), in order. -/
def operandSlots : Instr → List (Fin 16)
  | .nop => []
  | .cscFwd => [0]
  | .cscInv => [0, 1, 2]
  | .blkFwd => [0, 1, 2, 3, 4, 5, 6, 7, 8, 9, 10, 11]
  | .blkInv => [0, 1, 2, 3, 4, 5]
  | .dctFwd => [0, 1, 2, 3, 4, 5]
  | .dctInv => [0, 1, 2, 3, 4, 5]
  | .qa => [0]
  | .qbcd => [0]
  | .qc => [0]
  | .dqa => [0]
  | .dqbcd => [0]
  | .dqc => [0]
  | .fitsu _ => [0]
  | .fitss _ => [0]
  | .getu _ _ => [0]
  | .gets _ _ => [0]
  | .newu _ _ => [0, 1]
  | .news _ _ => [0, 1]
  | .cwPack => [0, 1, 2, 3, 4, 5]
  | .cwUnpack => [0]
  | .encBlock => [0, 1, 2, 3]
  | .decBlock => [0]

/-- What the operand slots of a command hold, in the order of `operandSlots`. -/
def operandValues (i : Instr) (a : Slots) : List Word := (operandSlots i).map fun k => a[k]

/-- OPERANDS(cmd, v) of R284: the operand slots the command reads hold `v`. -/
def operandsHold (i : Instr) (v : List Word) (s : State) : Bool := operandValues i s.a == v

end Sys2Proof.Machine
end

