-- ==== Sys2Proof/Machine/Operands.lean ====
section
/-!
DEFINITION. The operand and result formats of R12 (spec/00_scope.md), the rounding primitives of R9, and what a command
hands to the datapath step: either the words of its leading result slots or the fault it raises (R10, R13).
-/

namespace Sys2Proof.Machine

/-- A pixel: three independent 8-bit unsigned channels (R6, R12). -/
structure Pixel where
  r : Byte
  g : Byte
  b : Byte
deriving DecidableEq, Repr

/-- A fault a command raises: the cause and the value FAULT_INFO takes (R10, R250). -/
structure Raise where
  cause : Cause
  info  : BitVec 4
deriving DecidableEq, Repr

/-- What a command computes: a fault, or the words of Z[0], Z[1], ... (every further slot is 0, R13). -/
abbrev Result := Except Raise (List Word)

/-- `raise <Cause>(info)` of R10. -/
def raiseFault {α : Type} (c : Cause) (info : Nat) : Except Raise α :=
  .error { cause := c, info := BitVec.ofNat 4 info }

/-- `clamp(x, lo, hi)` of R9, over the rationals. -/
def clampQ (x lo hi : ℚ) : ℚ := if x < lo then lo else if hi < x then hi else x

/-- `round(x)` of R9: to the nearest integer, ties away from zero. -/
def roundQ (x : ℚ) : Int := if 0 ≤ x then ⌊x + 1 / 2⌋ else -⌊-x + 1 / 2⌋

/-- Operand format QV of R12: the slot read as a signed numerator over QDEN. -/
def qvIn (s : Word) : ℚ := (s.toInt : ℚ) / (Config.qden : ℚ)

/-- `v·QDEN` is an integer of the signed 64-bit range (R12). -/
def onGrid (v : ℚ) : Bool :=
  (v * Config.qden).den = 1 && -(2 ^ 63) ≤ (v * Config.qden).num && (v * Config.qden).num ≤ 2 ^ 63 - 1

/-- Result format QV of R12 for the result slot `j`: the numerator over QDEN, or RANGE(j). -/
def qvOut (j : Nat) (v : ℚ) : Except Raise Word :=
  if onGrid v then .ok (bits64 (v * Config.qden).num) else raiseFault .range j

/-- `qv_out` of the values of consecutive result slots from slot `j` on, in increasing order: the first failure raises
(R130, R140, R141). -/
def qvOutAll : Nat → List ℚ → Result
  | _, [] => .ok []
  | j, v :: vs => do
    let w ← qvOut j v
    let ws ← qvOutAll (j + 1) vs
    return w :: ws

/-- Operand format PIX of R12: R in 23:16, G in 15:8, B in 7:0; bits 63:24 are ignored (R89). -/
def pixIn (s : Word) : Pixel :=
  { r := BitVec.ofNat 8 (field s 8 16), g := BitVec.ofNat 8 (field s 8 8), b := BitVec.ofNat 8 (field s 8 0) }

/-- Result format PIX of R12. -/
def pixOut (p : Pixel) : Word :=
  BitVec.ofNat 64 (p.r.toNat * 2 ^ 16 + p.g.toNat * 2 ^ 8 + p.b.toNat)

/-- Result format BOOL of R12. -/
def boolOut (b : Bool) : Word := if b then 1 else 0

/-- All sixteen result slots of a successful command: the words it names, then 0 (R13). -/
def slotsOf (ws : List Word) : Slots :=
  #v[ws.getD 0 0, ws.getD 1 0, ws.getD 2 0, ws.getD 3 0, ws.getD 4 0, ws.getD 5 0, ws.getD 6 0, ws.getD 7 0,
     ws.getD 8 0, ws.getD 9 0, ws.getD 10 0, ws.getD 11 0, ws.getD 12 0, ws.getD 13 0, ws.getD 14 0, ws.getD 15 0]

end Sys2Proof.Machine
end

