-- ==== Sys2Proof/Machine/Ops.lean ====
section
/-!
DEFINITION. The shared operations of the datapath step on the state (R29 of spec/10_state.md): completing a command,
TAKING A FAULT (R253 of spec/60_exceptions.md), resetting the block (R280 of spec/70_reset_and_hazards.md), and the
register window (R51 of spec/20_memory.md). There is no return from a fault but a reset (R258).
-/

namespace Sys2Proof.Machine

/-- A successful datapath step: every result slot is written and BUSY cleared (R13, R29). -/
def complete (ws : List Word) (s : State) : State :=
  { s with z := slotsOf ws, status := { s.status with busy := false } }

/-- Taking a fault (R253): FAULT, CAUSE, FAULT_OPC from LATCH[7:0] and FAULT_INFO are written, BUSY is cleared, and
nothing else changes. -/
def recordFault (r : Raise) (s : State) : State :=
  { s with
    status :=
      { busy := false, fault := true, cause := r.cause, faultOpc := s.latch.extractLsb' 0 8, faultInfo := r.info } }

/-- The end of a datapath step (R29): write all result slots or record the fault. -/
def finish (res : Result) (s : State) : State :=
  match res with
  | .ok ws => complete ws s
  | .error r => recordFault r s

/-- What a command does to the machine, given what it computes. -/
def settle (res : Result) (s : State) : Host.Outcome State Fault Refusal := .next (finish res s)

/-- The reset of R280 and R33, for the external input and for CTRL.SRST alike: every register of the block takes its reset
value, whatever BUSY and FAULT are. -/
def resetBlock (s : State) : State :=
  { s with latch := 0, status := Status.reset, a := slotsZero, z := slotsZero }

/-- A reset of either source (R280): the block is reset, the run ends and the next begins (R282), with the host program
`next`. It has read nothing, and the refusal mark, which lasts "for the rest of the run" (R285), is gone. What `next` is for
each source: log 5, log 28. -/
def resetRun (next : List HostOp) (s : State) : State :=
  { resetBlock s with host := { program := next, reads := [], mode := .running } }

/-- The register at a byte offset of the window (R51). -/
def regAt (off : Nat) : Option Reg :=
  if off = 0x000 then some .cmd
  else if off = 0x008 then some .status
  else if off = 0x010 then some .ctrl
  else if off % 8 = 0 ∧ 0x080 ≤ off ∧ off ≤ 0x0F8 then some (.a (Fin.ofNat 16 ((off - 0x080) / 8)))
  else if off % 8 = 0 ∧ 0x100 ≤ off ∧ off ≤ 0x178 then some (.z (Fin.ofNat 16 ((off - 0x100) / 8)))
  else none

/-- The offset of a register (R51), the inverse of `regAt`. -/
def regOffset : Reg → Nat
  | .cmd => 0x000
  | .status => 0x008
  | .ctrl => 0x010
  | .a i => 0x080 + 8 * i.val
  | .z i => 0x100 + 8 * i.val

/-- The register a host access reaches, or why it is refused (R50, R52, R53, R286; an address outside the window: log 7). -/
def accessReg (addr bytes : Nat) : Except RefusedAccess Reg :=
  if addr < Config.base ∨ Config.base + 512 ≤ addr then .error .outsideWindow
  else if bytes ≠ 8 then .error .narrow
  else if (addr - Config.base) % 8 ≠ 0 then .error .misaligned
  else
    match regAt (addr - Config.base) with
    | some r => .ok r
    | none => .error .unmapped

/-- The value of a host read, which changes nothing (R24, R25, R26, R31, R32, R55). A read of a result slot while BUSY = 1
gives a free value (U3, log 8). -/
def readReg (r : Reg) (s : State) : Word :=
  match r with
  | .cmd => s.latch
  | .status => statusWord s.status
  | .ctrl => 0
  | .a i => s.a[i]
  | .z i => if s.status.busy then Config.busyRead s.draws else s.z[i]

/-- A read of a result slot while BUSY = 1 takes a free value, so the counter moves on and the next such read has a value of
its own (U3, log 8). -/
def countDraw (r : Reg) (s : State) : State :=
  match r with
  | .z _ => if s.status.busy then { s with draws := s.draws + 1 } else s
  | .cmd => s
  | .status => s
  | .ctrl => s
  | .a _ => s

/-- A host write of CMD (R28): refused while BUSY = 1, dropped while FAULT = 1, else latched. -/
def writeCmd (v : Word) (s : State) : Except RefusedAccess State :=
  if s.status.busy then .error .cmdWriteBusy
  else if s.status.fault then .ok s
  else .ok { s with latch := v, status := { s.status with busy := true } }

/-- A host write of CTRL (R26): bit 0 = 1 is a reset, at any time (R280, R285). The host goes on with its operations, as
programs P3 and P4 of spec/95_test_vectors.md do: they are the program of the run that begins (R282, log 28). -/
def writeCtrl (v : Word) (s : State) : State := if v.getLsbD 0 then resetRun s.host.program s else s

/-- A host write of an operand slot (R31): refused while BUSY = 1, whatever FAULT is. -/
def writeOperand (i : Fin 16) (v : Word) (s : State) : Except RefusedAccess State :=
  if s.status.busy then .error .operandWriteBusy else .ok { s with a := s.a.set i v }

/-- A host write of a register (R51, R55): writes of STATUS and Z are ignored. -/
def writeReg (r : Reg) (v : Word) (s : State) : Except RefusedAccess State :=
  match r with
  | .cmd => writeCmd v s
  | .status => .ok s
  | .ctrl => .ok (writeCtrl v s)
  | .a i => writeOperand i v s
  | .z _ => .ok s

end Sys2Proof.Machine
end

