-- ==== Sys2Proof/Machine/BlockTransform.lean ====
section
/-!
DEFINITION. BlockTransform (spec/42_block_transform.md): the formulas of R142 and R143 in exact rational arithmetic, and the
commands DCT_FWD and DCT_INV. The chroma averages pass through unchanged.
-/

namespace Sys2Proof.Machine

/-- The four coefficients of a block (R142). -/
structure Coeffs where
  a : ℚ
  b : ℚ
  c : ℚ
  d : ℚ
deriving DecidableEq, Repr

/-- `fwd` of R142. -/
def dctForward (y1 y2 y3 y4 : ℚ) : Coeffs :=
  { a := (y1 + y2 + y3 + y4) / 4
    b := (y4 + y3 - y2 - y1) / 4
    c := (y4 - y3 + y2 - y1) / 4
    d := (y4 - y3 - y2 + y1) / 4 }

/-- The four luma values of a block, in sub-order. -/
structure Luma where
  y1 : ℚ
  y2 : ℚ
  y3 : ℚ
  y4 : ℚ
deriving DecidableEq, Repr

/-- `inv` of R143. -/
def dctInverse (k : Coeffs) : Luma :=
  { y1 := k.a - k.b - k.c + k.d
    y2 := k.a - k.b + k.c - k.d
    y3 := k.a + k.b - k.c - k.d
    y4 := k.a + k.b + k.c + k.d }

/-- What DCT_FWD computes (R140): Z[4] and Z[5] are bit copies of A[4] and A[5]. -/
def dctFwdResult (a : Slots) : Result := do
  let k := dctForward (qvIn a[0]) (qvIn a[1]) (qvIn a[2]) (qvIn a[3])
  let ws ← qvOutAll 0 [k.a, k.b, k.c, k.d]
  return ws ++ [a[4], a[5]]

/-- DCT_FWD (R140). -/
def execDctFwd (s : State) : Host.Outcome State Fault Refusal := settle (dctFwdResult s.a) s

/-- What DCT_INV computes (R141): Z[4] and Z[5] are bit copies of A[4] and A[5]. -/
def dctInvResult (a : Slots) : Result := do
  let y := dctInverse { a := qvIn a[0], b := qvIn a[1], c := qvIn a[2], d := qvIn a[3] }
  let ws ← qvOutAll 0 [y.y1, y.y2, y.y3, y.y4]
  return ws ++ [a[4], a[5]]

/-- DCT_INV (R141). -/
def execDctInv (s : State) : Host.Outcome State Fault Refusal := settle (dctInvResult s.a) s

end Sys2Proof.Machine
end

