-- ==== Sys2Proof/Machine/ColorSpace.lean ====
section
/-!
DEFINITION. ColorSpaceTransform (spec/40_color_space.md): the formulas of R112 and R113 in exact rational arithmetic (R7),
and the commands CSC_FWD and CSC_INV.
-/

namespace Sys2Proof.Machine

/-- A YPbPr triple of exact rationals (R7). -/
structure YPbPr where
  y  : ℚ
  pb : ℚ
  pr : ℚ
deriving DecidableEq, Repr

/-- `rgb_to_ypbpr` of R112; every decimal constant is the exact rational it spells. -/
def rgbToYPbPr (p : Pixel) : YPbPr :=
  let r : ℚ := (p.r.toNat : ℚ) / 255
  let g : ℚ := (p.g.toNat : ℚ) / 255
  let b : ℚ := (p.b.toNat : ℚ) / 255
  { y := 299 / 1000 * r + 587 / 1000 * g + 114 / 1000 * b
    pb := -168736 / 1000000 * r - 331264 / 1000000 * g + 5 / 10 * b
    pr := 5 / 10 * r - 418688 / 1000000 * g - 81312 / 1000000 * b }

/-- `channel(v)` of R113: clamp to [0, 1], scale to [0, 255], truncate. -/
def channel (v : ℚ) : Byte := bits8 ⌊255 * clampQ v 0 1⌋

/-- `ypbpr_to_rgb` of R113. -/
def yPbPrToRgb (t : YPbPr) : Pixel :=
  { r := channel (t.y + 1402 / 1000 * t.pr)
    g := channel (t.y - 344136 / 1000000 * t.pb - 714136 / 1000000 * t.pr)
    b := channel (t.y + 1772 / 1000 * t.pb) }

/-- What CSC_FWD computes (R110). -/
def cscFwdResult (a : Slots) : Result :=
  let t := rgbToYPbPr (pixIn a[0])
  qvOutAll 0 [t.y, t.pb, t.pr]

/-- CSC_FWD (R110). -/
def execCscFwd (s : State) : Host.Outcome State Fault Refusal := settle (cscFwdResult s.a) s

/-- What CSC_INV computes (R111): every operand is accepted. -/
def cscInvResult (a : Slots) : Result :=
  .ok [pixOut (yPbPrToRgb { y := qvIn a[0], pb := qvIn a[1], pr := qvIn a[2] })]

/-- CSC_INV (R111). -/
def execCscInv (s : State) : Host.Outcome State Fault Refusal := settle (cscInvResult s.a) s

end Sys2Proof.Machine
end

