-- ==== Sys2Proof/Machine/ChromaBlock.lean ====
section
/-!
DEFINITION. ChromaBlockSampler (spec/41_chroma_block.md): the functions R132 and R133, and the commands BLK_FWD and BLK_INV.
Pixels 1 to 4 are top-left, top-right, bottom-left, bottom-right.
-/

namespace Sys2Proof.Machine

/-- A block: the four luma values and one averaged chroma pair (R132). -/
structure Block where
  y1 : ℚ
  y2 : ℚ
  y3 : ℚ
  y4 : ℚ
  pb : ℚ
  pr : ℚ
deriving DecidableEq, Repr

/-- `sample` of R132. -/
def sample (t1 t2 t3 t4 : YPbPr) : Block :=
  { y1 := t1.y, y2 := t2.y, y3 := t3.y, y4 := t4.y
    pb := (t1.pb + t2.pb + t3.pb + t4.pb) / 4
    pr := (t1.pr + t2.pr + t3.pr + t4.pr) / 4 }

/-- `broadcast` of R133: the triples of pixels 1 to 4. -/
def broadcast (k : Block) : YPbPr × YPbPr × YPbPr × YPbPr :=
  ({ y := k.y1, pb := k.pb, pr := k.pr }, { y := k.y2, pb := k.pb, pr := k.pr },
   { y := k.y3, pb := k.pb, pr := k.pr }, { y := k.y4, pb := k.pb, pr := k.pr })

/-- What BLK_FWD computes (R130). -/
def blkFwdResult (a : Slots) : Result :=
  let k := sample
    { y := qvIn a[0], pb := qvIn a[1], pr := qvIn a[2] }
    { y := qvIn a[3], pb := qvIn a[4], pr := qvIn a[5] }
    { y := qvIn a[6], pb := qvIn a[7], pr := qvIn a[8] }
    { y := qvIn a[9], pb := qvIn a[10], pr := qvIn a[11] }
  qvOutAll 0 [k.y1, k.y2, k.y3, k.y4, k.pb, k.pr]

/-- BLK_FWD (R130). -/
def execBlkFwd (s : State) : Host.Outcome State Fault Refusal := settle (blkFwdResult s.a) s

/-- What BLK_INV computes (R131): bit copies, in the order of `broadcast`. -/
def blkInvResult (a : Slots) : Result :=
  .ok [a[0], a[4], a[5], a[1], a[4], a[5], a[2], a[4], a[5], a[3], a[4], a[5]]

/-- BLK_INV (R131). -/
def execBlkInv (s : State) : Host.Outcome State Fault Refusal := settle (blkInvResult s.a) s

end Sys2Proof.Machine
end

