-- ==== Sys2Proof/Machine/BitPacker.lean ====
section
/-!
DEFINITION. BitPacker (spec/44_bitpacker.md): the functions R176 to R181 on a 64-bit word, and the commands FITSU, FITSS,
GETU, GETS, NEWU, NEWS. `w` is the field's width and `l` its offset.
-/

namespace Sys2Proof.Machine

/-- The contract of R176 for a field of width `w` at offset `l`. -/
def contractOk (w l : Nat) : Bool := w ≤ Config.packWidth && w + l ≤ Config.packWidth

/-- `fitsU` of R177. -/
def fitsU (v : Int) (w : Nat) : Bool := 0 ≤ v && v ≤ 2 ^ w - 1

/-- `fitsS` of R178: width 0 admits only 0. -/
def fitsS (v : Int) (w : Nat) : Bool :=
  if w = 0 then v = 0 else -(2 ^ (w - 1)) ≤ v && v ≤ 2 ^ (w - 1) - 1

/-- `getU` of R179; width 0 gives 0. -/
def getU (word : Word) (w l : Nat) : Nat := field word w l

/-- `getS` of R180; width 0 gives 0. -/
def getS (word : Word) (w l : Nat) : Int := sint w (field word w l)

/-- `mask(w, l)` of R181; 0 when w = 0. -/
def fieldMask (w l : Nat) : Word := BitVec.ofNat 64 (2 ^ w - 1) <<< l

/-- The insertion of R181: the field takes the low `w` bits of the value's two's complement pattern, every other bit of
`word` is kept. -/
def insertField (word : Word) (w l : Nat) (v : Int) : Word :=
  (word &&& ~~~(fieldMask w l)) ||| (BitVec.ofInt 64 (v % 2 ^ w) <<< l)

/-- `newU` of R181, with the value FAULT_INFO takes on an overflow (1 for the commands, the field's index in R192). -/
def newU (info : Nat) (word : Word) (w l : Nat) (v : Int) : Except Raise Word :=
  if fitsU v w then .ok (insertField word w l v) else raiseFault .overflow info

/-- `newS` of R181, with the value FAULT_INFO takes on an overflow. -/
def newS (info : Nat) (word : Word) (w l : Nat) (v : Int) : Except Raise Word :=
  if fitsS v w then .ok (insertField word w l v) else raiseFault .overflow info

/-- What a BitPacker command computes: CONTRACT(0) before anything else (R176, R255), then its one result. -/
def withContract (ok : Bool) (r : Except Raise Word) : Result :=
  if ok then
    match r with
    | .ok v => .ok [v]
    | .error e => .error e
  else raiseFault .contract 0

/-- FITSU (R170): the value is read unsigned, the contract is w ≤ 64. -/
def execFitsu (w : Nat) (s : State) : Host.Outcome State Fault Refusal :=
  settle (withContract (contractOk w 0) (.ok (boolOut (fitsU s.a[0].toNat w)))) s

/-- FITSS (R171): the value is read signed, the contract is w ≤ 64. -/
def execFitss (w : Nat) (s : State) : Host.Outcome State Fault Refusal :=
  settle (withContract (contractOk w 0) (.ok (boolOut (fitsS s.a[0].toInt w)))) s

/-- GETU (R172). -/
def execGetu (w l : Nat) (s : State) : Host.Outcome State Fault Refusal :=
  settle (withContract (contractOk w l) (.ok (bits64 (getU s.a[0] w l)))) s

/-- GETS (R173): the result is sign-extended to 64 bits. -/
def execGets (w l : Nat) (s : State) : Host.Outcome State Fault Refusal :=
  settle (withContract (contractOk w l) (.ok (bits64 (getS s.a[0] w l)))) s

/-- NEWU (R174): the value A[1] is read unsigned; OVERFLOW(1) where it does not fit. -/
def execNewu (w l : Nat) (s : State) : Host.Outcome State Fault Refusal :=
  settle (withContract (contractOk w l) (newU 1 s.a[0] w l s.a[1].toNat)) s

/-- NEWS (R175): the value A[1] is read signed; OVERFLOW(1) where it does not fit. -/
def execNews (w l : Nat) (s : State) : Host.Outcome State Fault Refusal :=
  settle (withContract (contractOk w l) (newS 1 s.a[0] w l s.a[1].toInt)) s

end Sys2Proof.Machine
end

