-- ==== Sys2Proof/Machine/Codeword.lean ====
section
/-!
DEFINITION. CodewordFormat (spec/45_codeword.md): the functions R192 and R193 over the layout of R90 (spec/30_encoding.md),
and the commands CW_PACK and CW_UNPACK.
-/

namespace Sys2Proof.Machine

/-- The six quantized fields of a codeword, as integers (R90). -/
structure Fields where
  a  : Int
  b  : Int
  c  : Int
  d  : Int
  pb : Int
  pr : Int
deriving DecidableEq, Repr

/-- `cw_pack` of R192: the fields are inserted in pack order onto a zero word; the first that does not fit raises
OVERFLOW with its index. -/
def cwPack (f : Fields) : Except Raise Word := do
  let word ← newU 0 0 9 23 f.a
  let word ← newS 1 word 5 18 f.b
  let word ← newS 2 word 5 13 f.c
  let word ← newS 3 word 5 8 f.d
  let word ← newU 4 word 4 4 f.pb
  newU 5 word 4 0 f.pr

/-- `cw_unpack` of R193. Every field lies in bits 31:0, so bits 63:32 of the slot are ignored (R89). -/
def cwUnpack (cw : Word) : Fields :=
  { a := getU cw 9 23, b := getS cw 5 18, c := getS cw 5 13, d := getS cw 5 8
    pb := getU cw 4 4, pr := getU cw 4 0 }

/-- What CW_PACK computes (R190): A[0], A[4], A[5] are read unsigned and A[1], A[2], A[3] signed. -/
def cwPackResult (a : Slots) : Result := do
  let cw ← cwPack
    { a := a[0].toNat, b := a[1].toInt, c := a[2].toInt, d := a[3].toInt, pb := a[4].toNat, pr := a[5].toNat }
  return [cw]

/-- CW_PACK (R190). -/
def execCwPack (s : State) : Host.Outcome State Fault Refusal := settle (cwPackResult s.a) s

/-- What CW_UNPACK computes (R191): b, c and d are sign-extended. -/
def cwUnpackResult (a : Slots) : Result :=
  let f := cwUnpack a[0]
  .ok [bits64 f.a, bits64 f.b, bits64 f.c, bits64 f.d, bits64 f.pb, bits64 f.pr]

/-- CW_UNPACK (R191). -/
def execCwUnpack (s : State) : Host.Outcome State Fault Refusal := settle (cwUnpackResult s.a) s

end Sys2Proof.Machine
end

