-- ==== Sys2Proof/Machine/Quantizer.lean ====
section
/-!
DEFINITION. Quantizer (spec/43_quantizer.md): the functions R156 to R161 over exact rationals, and the commands QA, QBCD, QC,
DQA, DQBCD, DQC.
-/

namespace Sys2Proof.Machine

/-- `quant_a` of R156. -/
def quantA (x : ℚ) : Int := roundQ (511 * clampQ x 0 1)

/-- `quant_bcd` of R157. -/
def quantBcd (x : ℚ) : Int := roundQ (50 * clampQ x (-3 / 10) (3 / 10))

/-- `quant_c` of R158, in the source's form: the index over 16 steps, clamped to 0 to 15. -/
def quantC (x : ℚ) : Int :=
  let i := roundQ ((clampQ x (-3 / 10) (3 / 10) - (-3 / 10)) / (6 / 10) * 15)
  if i < 0 then 0 else if 15 < i then 15 else i

/-- `dequant_a` of R159. -/
def dequantA (q : Int) : ℚ := (q : ℚ) / 511

/-- `dequant_bcd` of R160: no clamp, so -16 gives -0.32. -/
def dequantBcd (q : Int) : ℚ := (q : ℚ) / 50

/-- `dequant_c` of R161, in the source's form. -/
def dequantC (i : Int) : ℚ := -3 / 10 + (i : ℚ) / 15 * (6 / 10)

/-- QA (R150). -/
def execQa (s : State) : Host.Outcome State Fault Refusal := settle (.ok [bits64 (quantA (qvIn s.a[0]))]) s

/-- QBCD (R151): the result is sign-extended. -/
def execQbcd (s : State) : Host.Outcome State Fault Refusal := settle (.ok [bits64 (quantBcd (qvIn s.a[0]))]) s

/-- QC (R152). -/
def execQc (s : State) : Host.Outcome State Fault Refusal := settle (.ok [bits64 (quantC (qvIn s.a[0]))]) s

/-- DQA (R153): the operand is A[0][8:0], unsigned. -/
def execDqa (s : State) : Host.Outcome State Fault Refusal :=
  settle (qvOutAll 0 [dequantA (field s.a[0] 9 0)]) s

/-- DQBCD (R154): the operand is A[0][4:0], signed. -/
def execDqbcd (s : State) : Host.Outcome State Fault Refusal :=
  settle (qvOutAll 0 [dequantBcd (sint 5 (field s.a[0] 5 0))]) s

/-- DQC (R155): the operand is A[0][3:0], unsigned. -/
def execDqc (s : State) : Host.Outcome State Fault Refusal :=
  settle (qvOutAll 0 [dequantC (field s.a[0] 4 0)]) s

end Sys2Proof.Machine
end

