-- ==== Sys2Proof/Machine/BlockCodec.lean ====
section
/-!
DEFINITION. The composed per-block commands ENC_BLOCK and DEC_BLOCK (spec/46_block_codec.md), as the chains R203 and R204 of
the stage functions. No intermediate is rounded to the QV grid (R203).
-/

namespace Sys2Proof.Machine

/-- The six quantized fields of a block of four pixels: R203 up to the packing. -/
def encFields (p1 p2 p3 p4 : Pixel) : Fields :=
  let k := sample (rgbToYPbPr p1) (rgbToYPbPr p2) (rgbToYPbPr p3) (rgbToYPbPr p4)
  let t := dctForward k.y1 k.y2 k.y3 k.y4
  { a := quantA t.a, b := quantBcd t.b, c := quantBcd t.c, d := quantBcd t.d, pb := quantC k.pb, pr := quantC k.pr }

/-- `enc_block` of R203. -/
def encBlock (p1 p2 p3 p4 : Pixel) : Except Raise Word := cwPack (encFields p1 p2 p3 p4)

/-- The block a codeword stands for: R204 up to the broadcast. -/
def decCoeffs (cw : Word) : Block :=
  let f := cwUnpack cw
  let y := dctInverse { a := dequantA f.a, b := dequantBcd f.b, c := dequantBcd f.c, d := dequantBcd f.d }
  { y1 := y.y1, y2 := y.y2, y3 := y.y3, y4 := y.y4, pb := dequantC f.pb, pr := dequantC f.pr }

/-- `dec_block` of R204: pixels 1 to 4. -/
def decBlock (cw : Word) : Pixel × Pixel × Pixel × Pixel :=
  let t := broadcast (decCoeffs cw)
  (yPbPrToRgb t.1, yPbPrToRgb t.2.1, yPbPrToRgb t.2.2.1, yPbPrToRgb t.2.2.2)

/-- What ENC_BLOCK computes (R201). -/
def encBlockResult (a : Slots) : Result := do
  let cw ← encBlock (pixIn a[0]) (pixIn a[1]) (pixIn a[2]) (pixIn a[3])
  return [cw]

/-- ENC_BLOCK (R201). -/
def execEncBlock (s : State) : Host.Outcome State Fault Refusal := settle (encBlockResult s.a) s

/-- What DEC_BLOCK computes (R202). -/
def decBlockResult (a : Slots) : Result :=
  let q := decBlock a[0]
  .ok [pixOut q.1, pixOut q.2.1, pixOut q.2.2.1, pixOut q.2.2.2]

/-- DEC_BLOCK (R202). -/
def execDecBlock (s : State) : Host.Outcome State Fault Refusal := settle (decBlockResult s.a) s

end Sys2Proof.Machine
end

