-- ==== Sys2Proof/Machine/Control.lean ====
section
/-!
DEFINITION. The control command NOP (R200 of spec/46_block_codec.md).
-/

namespace Sys2Proof.Machine

/-- NOP (R200): a successful command that names no result, so every result slot becomes 0. -/
def execNop (s : State) : Host.Outcome State Fault Refusal := settle (.ok []) s

end Sys2Proof.Machine
end

