-- ==== Sys2Proof/Machine/Dispatch.lean ====
section
/-! DEFINITION. One arm per command of R81 (spec/30_encoding.md): each calls the meaning its family file gives it. -/

namespace Sys2Proof.Machine

/-- The datapath step of a decoded command (R29 of spec/10_state.md), taking faults included. -/
def exec (i : Instr) (s : State) : Host.Outcome State Fault Refusal :=
  match i with
  | .nop => Sys2Proof.Machine.execNop s
  | .cscFwd => Sys2Proof.Machine.execCscFwd s
  | .cscInv => Sys2Proof.Machine.execCscInv s
  | .blkFwd => Sys2Proof.Machine.execBlkFwd s
  | .blkInv => Sys2Proof.Machine.execBlkInv s
  | .dctFwd => Sys2Proof.Machine.execDctFwd s
  | .dctInv => Sys2Proof.Machine.execDctInv s
  | .qa => Sys2Proof.Machine.execQa s
  | .qbcd => Sys2Proof.Machine.execQbcd s
  | .qc => Sys2Proof.Machine.execQc s
  | .dqa => Sys2Proof.Machine.execDqa s
  | .dqbcd => Sys2Proof.Machine.execDqbcd s
  | .dqc => Sys2Proof.Machine.execDqc s
  | .fitsu w => Sys2Proof.Machine.execFitsu w s
  | .fitss w => Sys2Proof.Machine.execFitss w s
  | .getu w l => Sys2Proof.Machine.execGetu w l s
  | .gets w l => Sys2Proof.Machine.execGets w l s
  | .newu w l => Sys2Proof.Machine.execNewu w l s
  | .news w l => Sys2Proof.Machine.execNews w l s
  | .cwPack => Sys2Proof.Machine.execCwPack s
  | .cwUnpack => Sys2Proof.Machine.execCwUnpack s
  | .encBlock => Sys2Proof.Machine.execEncBlock s
  | .decBlock => Sys2Proof.Machine.execDecBlock s

end Sys2Proof.Machine
end

