-- ==== Sys2Proof/Machine/Agents.lean ====
section
/-!
DEFINITION. The steps of the two agents (R20 of spec/10_state.md): the datapath step (R29), and the host's register accesses,
POLL and CHECK (R11, R98, R99, R285, R286).
-/

namespace Sys2Proof.Machine

/-- The datapath step (R29) on the latched command: decode, then execute, or raise ILLEGAL(0) (R251). -/
def datapathStep (s : State) : Host.Outcome State Fault Refusal :=
  match decode s.latch with
  | .instr i => exec i s
  | .illegal _ => settle (raiseFault .illegal 0) s

/-- The host can take a step: it is running and has an operation to do (R285, R286, R291). -/
def hostEnabled (s : State) : Bool :=
  match s.host.mode with
  | .running => !s.host.program.isEmpty
  | .refused _ => false
  | .failed => false

/-- The host agent with `ops` still to do. -/
def setProgram (ops : List HostOp) (s : State) : State := { s with host := { s.host with program := ops } }

/-- The host reads a register: the value goes to its reads, the register keeps it (R55). -/
def hostRead (r : Reg) (s : State) : State :=
  let t := countDraw r s
  { t with host := { t.host with reads := t.host.reads ++ [readReg r s] } }

/-- The host is refused: the access has no effect on the block and the state carries the mark (R285, R286). -/
def refuseHost (why : RefusedAccess) (s : State) : State := { s with host := { s.host with mode := .refused why } }

/-- CHECK stops the host program with an error (R99): nothing of it is left to do (log 15). -/
def failHost (s : State) : State := { s with host := { s.host with program := [], mode := .failed } }

/-- A host access `MemRead(addr, bytes)`; `s` is the state with the operation already taken off the program (log 6). -/
def hostReadAt (addr bytes : Nat) (s : State) : State :=
  match accessReg addr bytes with
  | .ok r => hostRead r s
  | .error why => refuseHost why s

/-- A host access `MemWrite(addr, bytes, value)`. -/
def hostWriteAt (addr bytes : Nat) (v : Word) (s : State) : State :=
  match accessReg addr bytes with
  | .error why => refuseHost why s
  | .ok r =>
    match writeReg r v s with
    | .ok t => t
    | .error why => refuseHost why s

/-- POLL (R99), one read of STATUS: with BUSY = 1 the host goes on polling, with BUSY = 0 it goes on to `rest` (log 14). -/
def hostPoll (rest : List HostOp) (s : State) : State :=
  if s.status.busy then hostRead .status s else hostRead .status (setProgram rest s)

/-- CHECK (R99): a read of STATUS, and the host program stops with an error if FAULT = 1. -/
def hostCheck (s : State) : State :=
  if s.status.fault then failHost (hostRead .status s) else hostRead .status s

/-- One step of the host agent: the oldest operation of its program. -/
def hostStep (s : State) : State :=
  match s.host.program with
  | [] => s
  | .read addr bytes :: rest => hostReadAt addr bytes (setProgram rest s)
  | .write addr bytes v :: rest => hostWriteAt addr bytes v (setProgram rest s)
  | .poll :: rest => hostPoll rest s
  | .check :: rest => hostCheck (setProgram rest s)

/-- The external reset (R280): one atomic step. What the host had left to do ends with the run (R282); the run that begins
has the host program `next` (log 5). -/
def externalReset (next : List HostOp) (s : State) : State := resetRun next s

/-- The step of a chosen turn. A turn of an agent that has no step changes nothing (log 4). -/
def takeTurn (t : Turn) (s : State) : Host.Outcome State Fault Refusal :=
  match t with
  | .host => if hostEnabled s then .next (hostStep s) else .next s
  | .datapath => if s.status.busy then datapathStep s else .next s
  | .reset next => .next (externalReset next s)
  | .resetDuringAccess => .fault .resetDuringAccess

/-- The agent that moves where no turn is chosen: the one that has a step; a free choice where both have one (R20, log 2);
`none` where neither has. The free choice is weakly fair to the datapath: it is passed over a finite, unspecified number of
times (R287, log 13). The state returned counts the choice. -/
def freeTurn (s : State) : Option Turn × State :=
  if s.status.busy then
    if hostEnabled s then
      if Config.latency s.grants ≤ s.passed then (some .datapath, { s with grants := s.grants + 1, passed := 0 })
      else (some .host, { s with passed := s.passed + 1 })
    else (some .datapath, s)
  else if hostEnabled s then (some .host, s)
  else (none, s)

end Sys2Proof.Machine
end

