-- ==== Sys2Proof/Machine/Step.lean ====
section
/-!
DEFINITION. One step of the machine: one turn of one agent (R20, R29, R59), and the state in which the very next step runs a
given command.
-/

namespace Sys2Proof.Machine

/-- One step: the oldest chosen turn, else the agent that has a step, else nothing happens (log 3). The chosen turns are
finitely many and the free choice that follows them is fair, so every execution is weakly fair to the datapath (R287,
log 13). -/
def step (s : State) : Host.Outcome State Fault Refusal :=
  match s.schedule with
  | t :: rest => takeTurn t { s with schedule := rest }
  | [] =>
    match freeTurn s with
    | (some t, u) => takeTurn t u
    | (none, u) => .next u

/-- `s` with the command `w` accepted and the datapath chosen to move next: what a host write of the word to CMD leaves
(R28), so that the next step is the datapath step of that command (log 11). -/
def State.withFetchWord (s : State) (nbits w : Nat) : State :=
  { s with
    latch := BitVec.ofNat 64 (w % 2 ^ nbits)
    status := { s.status with busy := true }
    schedule := .datapath :: s.schedule }

end Sys2Proof.Machine
end

