-- ==== Sys2Proof/Machine/HostProgram.lean ====
section
/-!
DEFINITION. The host's program syntax (R96 to R100 of spec/30_encoding.md), the program fragments of R223
(spec/47_host_framing.md), and the observation of a run (R291 of spec/70_reset_and_hazards.md). POLL and CHECK are
operations of HostOp.
-/

namespace Sys2Proof.Machine

/-- The byte address of a register (R51). -/
def regAddr (r : Reg) : Nat := Config.base + regOffset r

/-- `WR <reg>, <value>` (R98). -/
def wr (r : Reg) (v : Word) : HostOp := .write (regAddr r) 8 v

/-- `RD <reg>` (R98). -/
def rd (r : Reg) : HostOp := .read (regAddr r) 8

/-- `EXEC <command>` (R99): the write of CMD, then POLL. -/
def execOps (cmd : Word) : List HostOp := [wr .cmd cmd, .poll]

/-- `qv(x)` (R100): defined only where x·QDEN is an integer of the signed 64-bit range. -/
def qvLiteral (x : ℚ) : Option Word := if onGrid x then some (bits64 (x * Config.qden).num) else none

/-- The mnemonic of a command (R81, R96). -/
def mnemonic : Instr → String
  | .nop => "NOP"
  | .cscFwd => "CSC_FWD"
  | .cscInv => "CSC_INV"
  | .blkFwd => "BLK_FWD"
  | .blkInv => "BLK_INV"
  | .dctFwd => "DCT_FWD"
  | .dctInv => "DCT_INV"
  | .qa => "QA"
  | .qbcd => "QBCD"
  | .qc => "QC"
  | .dqa => "DQA"
  | .dqbcd => "DQBCD"
  | .dqc => "DQC"
  | .fitsu _ => "FITSU"
  | .fitss _ => "FITSS"
  | .getu _ _ => "GETU"
  | .gets _ _ => "GETS"
  | .newu _ _ => "NEWU"
  | .news _ _ => "NEWS"
  | .cwPack => "CW_PACK"
  | .cwUnpack => "CW_UNPACK"
  | .encBlock => "ENC_BLOCK"
  | .decBlock => "DEC_BLOCK"

/-- The operands a command takes in the assembler (R96): `w`, or `w, l`, for the BitPacker commands. -/
def asmOperands : Instr → List Nat
  | .fitsu w => [w]
  | .fitss w => [w]
  | .getu w l => [w, l]
  | .gets w l => [w, l]
  | .newu w l => [w, l]
  | .news w l => [w, l]
  | .nop => []
  | .cscFwd => []
  | .cscInv => []
  | .blkFwd => []
  | .blkInv => []
  | .dctFwd => []
  | .dctInv => []
  | .qa => []
  | .qbcd => []
  | .qc => []
  | .dqa => []
  | .dqbcd => []
  | .dqc => []
  | .cwPack => []
  | .cwUnpack => []
  | .encBlock => []
  | .decBlock => []

/-- The host program that compresses one block (R223). -/
def encBlockProgram (p1 p2 p3 p4 : Pixel) : List HostOp :=
  [wr (.a 0) (pixOut p1), wr (.a 1) (pixOut p2), wr (.a 2) (pixOut p3), wr (.a 3) (pixOut p4)]
    ++ execOps (encode .encBlock) ++ [.check, rd (.z 0)]

/-- The host program that decompresses one block (R223). -/
def decBlockProgram (cw : Word) : List HostOp :=
  [wr (.a 0) cw] ++ execOps (encode .decBlock) ++ [.check, rd (.z 0), rd (.z 1), rd (.z 2), rd (.z 3)]

/-- What a run shows (R291): the values the host read and the final STATUS, A and Z. -/
structure Observation where
  reads  : List Word
  status : Word
  a      : Slots
  z      : Slots
deriving DecidableEq, Repr

/-- The run is over: it has faulted (R258), or no operation is left and BUSY = 0 (R291). With BUSY = 1 it is not over. The host
may go on after a fault, as programs P3 and P4 of spec/95_test_vectors.md do, until a reset begins the next run (log 30). A
refused operation counts as done, so without a fault the run of a host that was refused at its last operation is over, while
one refused before its last is not: R291 speaks of the last operation executed and says nothing of a refused one. DESIGN
CHOICE, log 29. -/
def runOver (s : State) : Bool := !s.status.busy && (s.status.fault || s.host.program.isEmpty)

/-- The host carries the refusal mark (R285, R286). -/
def hostRefused (s : State) : Bool :=
  match s.host.mode with
  | .refused _ => true
  | .running => false
  | .failed => false

/-- The observation of a run (R291): none while it is not over, and none for a refused host. The values are those read since
the last reset, of either source (R282, log 5, log 28); in a run that has faulted, those the host reads after the fault count
too: DESIGN CHOICE, log 30. -/
def observation (s : State) : Option Observation :=
  if hostRefused s || !runOver s then none
  else some { reads := s.host.reads, status := statusWord s.status, a := s.a, z := s.z }

/-- The run has failed (R291): it is over with FAULT = 1, from the fault on (R258), whatever it reads then. A reset that follows
begins the next run, which has not failed (R282, log 31). -/
def runFailed (s : State) : Bool := runOver s && s.status.fault

end Sys2Proof.Machine
end

