-- ==== Sys2Proof/Machine/Framing.lean ====
section
/-!
DEFINITION. The compressed-file framing, which runs on the host (R4 of spec/00_scope.md, R210 to R217 of
spec/47_host_framing.md): writing and reading the magic line, the dimension line and the body. Bytes are octets, characters
ASCII (log 23).
-/

namespace Sys2Proof.Machine

/-- Why a stream is a format error (R210, R212, R215, R216). The spec has one class (R270); the names are the model's own
(log 22). -/
inductive FormatError where
  /-- the first 33 bytes are not the magic line, or there are fewer (R210) -/
  | magic
  /-- no digit where the width must begin (R212) -/
  | widthDigits
  /-- no separator after the width (R212) -/
  | separator
  /-- no digit where the height must begin (R212) -/
  | heightDigits
  /-- a width or height that is 0 or odd (R215) -/
  | dimensions
  /-- the stream ends before the last codeword is complete (R216) -/
  | prematureEnd
deriving DecidableEq, Repr

/-- A parsed stream: the dimensions and the codewords, in order. -/
structure Stream where
  width     : Nat
  height    : Nat
  codewords : List Word
deriving DecidableEq, Repr

/-- The magic line of R210, "COMP40 Compressed image format 2" and a line feed: 33 bytes. -/
def magicLine : List Byte :=
  [0x43, 0x4F, 0x4D, 0x50, 0x34, 0x30, 0x20, 0x43, 0x6F, 0x6D, 0x70, 0x72, 0x65, 0x73, 0x73, 0x65, 0x64]
    ++ [0x20, 0x69, 0x6D, 0x61, 0x67, 0x65, 0x20, 0x66, 0x6F, 0x72, 0x6D, 0x61, 0x74, 0x20, 0x32, 0x0A]

/-- The ASCII digit of a number below 10. -/
def digitByte (d : Nat) : Byte := BitVec.ofNat 8 (0x30 + d)

/-- A natural number in decimal ASCII digits, without sign or leading zero (R211). -/
def decimal (n : Nat) : List Byte :=
  if n = 0 then [digitByte 0] else (Nat.digits 10 n).reverse.map digitByte

/-- The dimension line as written (R211). -/
def dimensionLine (w h : Nat) : List Byte := decimal w ++ [0x20] ++ decimal h ++ [0x0A]

/-- A codeword as 4 bytes, most significant first (R214). -/
def codewordBytes (cw : Word) : List Byte :=
  [BitVec.ofNat 8 (field cw 8 24), BitVec.ofNat 8 (field cw 8 16), BitVec.ofNat 8 (field cw 8 8),
   BitVec.ofNat 8 (field cw 8 0)]

/-- The stream of an image's codewords (R220). -/
def frameStream (w h : Nat) (cws : List Word) : List Byte :=
  magicLine ++ dimensionLine w h ++ cws.flatMap codewordBytes

/-- The bytes 0x30 to 0x39 (R212). -/
def isDigit (b : Byte) : Bool := 0x30 ≤ b.toNat && b.toNat ≤ 0x39

/-- The separator bytes of R212. -/
def isSpace (b : Byte) : Bool := b.toNat = 0x20 || 0x09 ≤ b.toNat && b.toNat ≤ 0x0D

/-- The value of a run of ASCII digits, leading zeros allowed (R212). -/
def digitsValue (ds : List Byte) : Nat := ds.foldl (fun n d => n * 10 + (d.toNat - 0x30)) 0

/-- One or more bytes of a kind, read maximally (R212): the run and the rest, or the given error. -/
def readRun (kind : Byte → Bool) (e : FormatError) (bs : List Byte) : Except FormatError (List Byte × List Byte) :=
  if (bs.takeWhile kind).isEmpty then .error e else .ok (bs.takeWhile kind, bs.dropWhile kind)

/-- The newline after the height is optional: any other byte is pushed back (R212), and nothing is skipped (R213, log 19). -/
def dropNewline : List Byte → List Byte
  | [] => []
  | b :: bs => if b = 0x0A then bs else b :: bs

/-- A codeword from its four bytes (R214). -/
def codewordOf (b0 b1 b2 b3 : Byte) : Word :=
  BitVec.ofNat 64 (b0.toNat * 2 ^ 24 + b1.toNat * 2 ^ 16 + b2.toNat * 2 ^ 8 + b3.toNat)

/-- Exactly `n` codewords from the body; bytes after them are ignored (R214, R216). -/
def readCodewords : Nat → List Byte → Except FormatError (List Word)
  | 0, _ => .ok []
  | n + 1, b0 :: b1 :: b2 :: b3 :: rest =>
    match readCodewords n rest with
    | .ok cws => .ok (codewordOf b0 b1 b2 b3 :: cws)
    | .error e => .error e
  | _ + 1, _ => .error .prematureEnd

/-- A dimension the block grid can use: even and not zero (R215). -/
def dimensionOk (n : Nat) : Bool := n ≠ 0 && n % 2 = 0

/-- The decoder of the framing (R210 to R217). -/
def parseStream (bs : List Byte) : Except FormatError Stream := do
  if bs.take 33 ≠ magicLine then throw .magic
  let (ws, rest) ← readRun isDigit .widthDigits (bs.drop 33)
  let (_, rest) ← readRun isSpace .separator rest
  let (hs, rest) ← readRun isDigit .heightDigits rest
  let w := digitsValue ws
  let h := digitsValue hs
  if !(dimensionOk w && dimensionOk h) then throw .dimensions
  let cws ← readCodewords (w / 2 * (h / 2)) (dropNewline rest)
  return { width := w, height := h, codewords := cws }

end Sys2Proof.Machine
end

