-- ==== Sys2Proof/Machine/HostRun.lean ====
section
/-!
DEFINITION. The host's compress and decompress runs (R220, R221, R224, R230, R231 of spec/47_host_framing.md), as functions
from the input to either the whole output or a failure, over the same block functions the commands ENC_BLOCK and DEC_BLOCK
compute.
-/

namespace Sys2Proof.Machine

/-- A raster in row-major order: the pixel at column x and row y is element y·width + x (R65). -/
structure Raster where
  width  : Nat
  height : Nat
  pixels : List Pixel
deriving DecidableEq, Repr

/-- The failure classes of a run (R224, R270). -/
inductive RunFailure where
  | formatError (e : FormatError)
  | contractViolation
  | resourceExhaustion
  /-- a fault the block recorded, seen by CHECK (R224) -/
  | blockFault (r : Raise)
deriving DecidableEq, Repr

/-- A black pixel, for positions outside a raster; no run reads one. -/
def noPixel : Pixel := { r := 0, g := 0, b := 0 }

/-- The pixel at column x and row y (R65). -/
def Raster.pixelAt (img : Raster) (x y : Nat) : Pixel := img.pixels.getD (y * img.width + x) noPixel

/-- The premises of a compress run (R215, R220): even dimensions, not zero, and a buffer of width × height pixels (log 16). -/
def Raster.wellFormed (img : Raster) : Bool :=
  dimensionOk img.width && dimensionOk img.height && img.pixels.length == img.width * img.height

/-- `enc_block` of block number k: block (i, j) = (k div (w/2), k mod (w/2)), pixels top-left, top-right, bottom-left,
bottom-right (R230). -/
def encBlockAt (img : Raster) (k : Nat) : Except Raise Word :=
  let i := k / (img.width / 2)
  let j := k % (img.width / 2)
  encBlock (img.pixelAt (2 * j) (2 * i)) (img.pixelAt (2 * j + 1) (2 * i)) (img.pixelAt (2 * j) (2 * i + 1))
    (img.pixelAt (2 * j + 1) (2 * i + 1))

/-- The codewords of the blocks `k, k + 1, ...` (`n` of them), in row-major block order (R220, R225). -/
def encBlocksFrom (img : Raster) : Nat → Nat → Except Raise (List Word)
  | 0, _ => .ok []
  | n + 1, k => do
    let cw ← encBlockAt img k
    let cws ← encBlocksFrom img n (k + 1)
    return cw :: cws

/-- The compress run (R220): the whole stream or a failure (R224). `canAllocate n` says whether the host can hold `n`
buffer elements (U17, log 16). It is asked once, for the width × height elements of the image; the allocation of the codeword
array and of the byte stream (R226) is not asked about: DESIGN CHOICE, log 26. Where several failures apply, a contract
violation is reported first, then resource exhaustion: DESIGN CHOICE, log 27. -/
def compressRun (canAllocate : Nat → Bool) (img : Raster) : Except RunFailure (List Byte) :=
  if !img.wellFormed then .error .contractViolation
  else if !canAllocate (img.width * img.height) then .error .resourceExhaustion
  else
    match encBlocksFrom img (img.width / 2 * (img.height / 2)) 0 with
    | .ok cws => .ok (frameStream img.width img.height cws)
    | .error r => .error (.blockFault r)

/-- Pixel 1, 2, 3 or 4 of a decoded block, by its column and row inside the block (R231). -/
def subPixel (q : Pixel × Pixel × Pixel × Pixel) (dx dy : Nat) : Pixel :=
  if dy = 0 then (if dx = 0 then q.1 else q.2.1) else (if dx = 0 then q.2.2.1 else q.2.2.2)

/-- The decoded pixel at column x and row y: it belongs to block (y div 2, x div 2), which is codeword number
(y div 2)·(w/2) + x div 2 (R230, R231). -/
def decodedPixel (st : Stream) (x y : Nat) : Pixel :=
  subPixel (decBlock (st.codewords.getD (y / 2 * (st.width / 2) + x / 2) 0)) (x % 2) (y % 2)

/-- The raster of a parsed stream, of the dimensions its header gives (R217, R221, R231). -/
def decodedRaster (st : Stream) : Raster :=
  { width := st.width
    height := st.height
    pixels := (List.range st.height).flatMap fun y => (List.range st.width).map fun x => decodedPixel st x y }

/-- The decompress run (R221): the whole raster or a failure (R224). `canAllocate` is asked once, for the width × height
elements of the image (R215): DESIGN CHOICE, log 26. Where several failures apply, a format error, of the header or of the
body, is reported before resource exhaustion: DESIGN CHOICE, log 27. -/
def decompressRun (canAllocate : Nat → Bool) (bs : List Byte) : Except RunFailure Raster :=
  match parseStream bs with
  | .error e => .error (.formatError e)
  | .ok st =>
    if !canAllocate (st.width * st.height) then .error .resourceExhaustion else .ok (decodedRaster st)

end Sys2Proof.Machine
end

