-- ==== Sys2Proof/Safety.lean ====
section
/-!
DEFINITION. What a legal state of the machine is, in the terms the statements use: the legal values of STATUS (R25 of
spec/10_state.md) and the faults each command can record (R252 of spec/60_exceptions.md).
-/

namespace Sys2Proof.Machine

/-- The faults a command can raise beyond ILLEGAL: the table of R252, with the FAULT_INFO values of R250. -/
def mayRaise (i : Instr) (c : Cause) (info : Nat) : Bool :=
  match i with
  | .blkFwd => c = .range && (info = 4 || info = 5)
  | .dctFwd => c = .range && info ≤ 3
  | .dctInv => c = .range && info ≤ 3
  | .fitsu _ => c = .contract && info = 0
  | .fitss _ => c = .contract && info = 0
  | .getu _ _ => c = .contract && info = 0
  | .gets _ _ => c = .contract && info = 0
  | .newu _ _ => c = .contract && info = 0 || c = .overflow && info = 1
  | .news _ _ => c = .contract && info = 0 || c = .overflow && info = 1
  | .cwPack => c = .overflow && info ≤ 5
  | .nop => false
  | .cscFwd => false
  | .cscInv => false
  | .blkInv => false
  | .qa => false
  | .qbcd => false
  | .qc => false
  | .dqa => false
  | .dqbcd => false
  | .dqc => false
  | .cwUnpack => false
  | .encBlock => false
  | .decBlock => false

/-- The fault a command word can record: ILLEGAL(0) exactly where it does not decode, else what R252 lists. -/
def recordLegal (cmd : Word) (c : Cause) (info : Nat) : Bool :=
  match decode cmd with
  | .illegal _ => c = .illegal && info = 0
  | .instr i => mayRaise i c info

/-- A legal STATUS beside the latched command (R25, R250, R253): without a fault the record is 0; with one, the block is
idle and the record is one the latched word, still there (R254), can make. -/
def statusLegal (latch : Word) (st : Status) : Bool :=
  if st.fault then
    !st.busy && st.faultOpc = latch.extractLsb' 0 8 && recordLegal latch st.cause st.faultInfo.toNat
  else st.cause = .none && st.faultOpc = 0 && st.faultInfo = 0

/-- The invariant of the machine: STATUS is legal beside LATCH. -/
def LegalState (s : State) : Prop := statusLegal s.latch s.status = true

end Sys2Proof.Machine
end

