-- ==== Sys2Proof/Certificates/Slice0/Obligations.lean ====
section
/-!
DEFINITION. The statements for the provers. Each is written in terms of its own (explicit records, explicit rational and
integer formulas), not through the functions the meanings are built from. QDEN is written out as 521220000000.
A rule of spec/ is cited as R<n>.
-/

namespace Sys2Proof.Claims

open Sys2Proof.Machine

/-- The state a successful command leaves: these result slots, BUSY cleared, nothing else changed (R13, R29). -/
def afterSuccess (s : State) (z : Slots) : State := { s with z := z, status := { s.status with busy := false } }

/-- The state a faulting command leaves: the fault record of R253, BUSY cleared, nothing else changed. -/
def afterFault (s : State) (c : Cause) (info : Nat) : State :=
  { s with
    status :=
      { busy := false, fault := true, cause := c, faultOpc := BitVec.ofNat 8 (s.latch.toNat % 256)
        faultInfo := BitVec.ofNat 4 info } }

/-- One named result. -/
def slots1 (x : Word) : Slots := #v[x, 0, 0, 0, 0, 0, 0, 0, 0, 0, 0, 0, 0, 0, 0, 0]

/-- Four named results. -/
def slots4 (x0 x1 x2 x3 : Word) : Slots := #v[x0, x1, x2, x3, 0, 0, 0, 0, 0, 0, 0, 0, 0, 0, 0, 0]

/-- Six named results. -/
def slots6 (x0 x1 x2 x3 x4 x5 : Word) : Slots := #v[x0, x1, x2, x3, x4, x5, 0, 0, 0, 0, 0, 0, 0, 0, 0, 0]

/-- The real value a QV slot stands for (R12, R94). -/
def qv (x : Word) : ℚ := (x.toInt : ℚ) / 521220000000

/-- The channels of a PIX slot (R12). -/
def red (x : Word) : Nat := x.toNat / 65536 % 256
/-- See `red`. -/
def green (x : Word) : Nat := x.toNat / 256 % 256
/-- See `red`. -/
def blue (x : Word) : Nat := x.toNat % 256

/-- A PIX slot of three channel values (R12). -/
def pix (r g b : Int) : Word := BitVec.ofInt 64 (r * 65536 + g * 256 + b)

/-- Rounding to nearest, ties away from zero (R9), said without the model's function. -/
def nearest (x : ℚ) (q : Int) : Prop := if 0 ≤ x then q = ⌊x + 1 / 2⌋ else q = -⌊1 / 2 - x⌋

/-- A channel of R113. -/
def chan (v : ℚ) : Int := ⌊255 * max 0 (min 1 v)⌋

/-- The pixel of R113 for a YPbPr triple. -/
def rgb (y pb pr : ℚ) : Word :=
  pix (chan (y + (1402 / 1000) * pr)) (chan (y - (344136 / 1000000) * pb - (714136 / 1000000) * pr)) (chan (y + (1772 / 1000) * pb))

/-- The luma of a PIX slot (R112). -/
def luma (x : Word) : ℚ := (299 / 1000) * (red x / 255) + (587 / 1000) * (green x / 255) + (114 / 1000) * (blue x / 255)
/-- The blue chroma of a PIX slot (R112). -/
def chromaB (x : Word) : ℚ := -(168736 / 1000000) * (red x / 255) - (331264 / 1000000) * (green x / 255) + (5 / 10) * (blue x / 255)
/-- The red chroma of a PIX slot (R112). -/
def chromaR (x : Word) : ℚ := (5 / 10) * (red x / 255) - (418688 / 1000000) * (green x / 255) - (81312 / 1000000) * (blue x / 255)

/-- The `n`-bit field of `x` at bit `lo`, read signed (R93). -/
def signedField (x : Word) (n lo : Nat) : Int :=
  let f := x.toNat / 2 ^ lo % 2 ^ n
  if f < 2 ^ (n - 1) then f else (f : Int) - 2 ^ n

/-- The codeword of six fields (R90): each field's low bits at its offset. -/
def codeword (a b c d pb pr : Int) : Word :=
  BitVec.ofInt 64 (a * 2 ^ 23 + b % 32 * 2 ^ 18 + c % 32 * 2 ^ 13 + d % 32 * 2 ^ 8 + pb * 2 ^ 4 + pr)

/-- The command words of R83 to R85: bits 63:22 are 0, the OPC is defined, and WIDTH and LSB are 0 where its row of R81
says so. -/
def legalWord (cmd : Word) : Bool :=
  let n := cmd.toNat
  let opc := n % 256
  let w := n / 256 % 128
  let l := n / 32768 % 128
  n < 2 ^ 22
    && ((opc ∈ [0x00, 0x01, 0x02, 0x03, 0x04, 0x05, 0x06, 0x10, 0x11, 0x12, 0x13, 0x14, 0x15, 0x30, 0x31, 0x40, 0x41]
          && w = 0 && l = 0)
      || (opc ∈ [0x20, 0x21] && l = 0)
      || opc ∈ [0x22, 0x23, 0x24, 0x25])

/-- The registers of the block are those of R33. -/
def blockIsReset (s : State) : Prop :=
  s.latch = 0 ∧ statusWord s.status = 0 ∧ (∀ i : Fin 16, s.a[i] = 0) ∧ (∀ i : Fin 16, s.z[i] = 0)

/-- The block's registers agree. -/
def sameBlock (s t : State) : Prop := t.latch = s.latch ∧ t.status = s.status ∧ t.a = s.a ∧ t.z = s.z

/-- The state with these operand slots. -/
def withA (s : State) (a : Slots) : State := { s with a := a }

/-- The byte offset of a register (the map of R51). -/
def offsetOf : Reg → Nat
  | .cmd => 0x00
  | .status => 0x08
  | .ctrl => 0x10
  | .a i => 0x80 + 8 * i.val
  | .z i => 0x100 + 8 * i.val

/-- The code of a cause (R250). -/
def codeOf : Cause → Nat
  | .none => 0
  | .illegal => 1
  | .contract => 2
  | .overflow => 3
  | .range => 4

/-- How many operand slots a command reads: each row of R88 names A0 up to some slot, or none. -/
def operandCount : Instr → Nat
  | .nop => 0
  | .cscFwd | .qa | .qbcd | .qc | .dqa | .dqbcd | .dqc => 1
  | .fitsu _ | .fitss _ | .getu _ _ | .gets _ _ => 1
  | .cwUnpack | .decBlock => 1
  | .newu _ _ | .news _ _ => 2
  | .cscInv => 3
  | .encBlock => 4
  | .blkInv | .dctFwd | .dctInv | .cwPack => 6
  | .blkFwd => 12

/-- The state after `n` steps; none where one of them answers no next state. -/
def after : Nat → State → Option State
  | 0, s => some s
  | n + 1, s =>
    match step s with
    | .next t => after n t
    | .fault _ => none
    | .refused _ => none

/-- The 33 bytes of the magic line (R210). -/
def magicBytes : List Byte :=
  [0x43, 0x4F, 0x4D, 0x50, 0x34, 0x30, 0x20, 0x43, 0x6F, 0x6D, 0x70, 0x72, 0x65, 0x73, 0x73, 0x65, 0x64, 0x20, 0x69, 0x6D,
   0x61, 0x67, 0x65, 0x20, 0x66, 0x6F, 0x72, 0x6D, 0x61, 0x74, 0x20, 0x32, 0x0A]

/-- An ASCII digit (R212). -/
def digit (b : Byte) : Prop := 0x30 ≤ b.toNat ∧ b.toNat ≤ 0x39

/-- A separator byte (R212). -/
def separator (b : Byte) : Prop := b ∈ ([0x20, 0x09, 0x0A, 0x0B, 0x0C, 0x0D] : List Byte)

/-- The number a run of digits spells. -/
def numeral (ds : List Byte) : Nat := ds.foldl (fun n b => n * 10 + (b.toNat - 0x30)) 0

/-- A nonempty run of one kind of byte. -/
def runOf (kind : Byte → Prop) (bs : List Byte) : Prop := bs ≠ [] ∧ ∀ b ∈ bs, kind b

/-- The bytes end here, or go on with a byte not of this kind. -/
def startsWithout (kind : Byte → Prop) (bs : List Byte) : Prop := ∀ b, bs.head? = some b → ¬ kind b

/-- A dimension line of R212 up to the end of the height: digits, separators, digits. -/
def dimensionBytes (w h : Nat) (line : List Byte) : Prop :=
  ∃ ds sep hs, line = ds ++ sep ++ hs ∧ runOf digit ds ∧ runOf separator sep ∧ runOf digit hs ∧
    numeral ds = w ∧ numeral hs = h

/-- Codewords 0 to n - 1 of a body (R214): codeword k is bytes 4k to 4k + 3, most significant first. -/
def bodyWords (n : Nat) (body : List Byte) : List Word :=
  (List.range n).map fun k => BitVec.ofNat 64
    ((body.getD (4 * k) 0).toNat * 2 ^ 24 + (body.getD (4 * k + 1) 0).toNat * 2 ^ 16
      + (body.getD (4 * k + 2) 0).toNat * 2 ^ 8 + (body.getD (4 * k + 3) 0).toNat)

/-- The pixel at column x and row y (R65). -/
def pixelOf (img : Raster) (x y : Nat) : Pixel := img.pixels.getD (y * img.width + x) { r := 0, g := 0, b := 0 }

/-- The PIX slot of a pixel (R12). -/
def slotOf (p : Pixel) : Word := pix p.r.toNat p.g.toNat p.b.toNat

end Sys2Proof.Claims

open Sys2Proof Sys2Proof.Machine Sys2Proof.Claims

/-! ### Reset, acceptance and the register window -/

/-- R33: reset clears LATCH, STATUS, every operand and result slot; a read of CTRL gives 0. -/
def Obligations.ResetClearsEveryRegister : Prop :=
  blockIsReset State.reset ∧ readReg .ctrl State.reset = 0

/-- The invariant holds after reset. -/
def Obligations.ResetMeetsInvariant : Prop := LegalState State.reset

/-- R280: the external reset and a write of 1 to CTRL.SRST leave every register at its reset value, whatever BUSY and FAULT
are, and end the run (R282): the host's reads and its refusal mark are gone. In the model's form the external reset is the
turn `reset next` of the schedule, which begins a run with the host program `next` (log 5), and after a write of CTRL the
host goes on with its own operations (log 28). -/
def Obligations.BothResetSourcesClearBlock : Prop :=
  ∀ s : State,
    (∀ next : List HostOp, ∃ t, takeTurn (.reset next) s = .next t ∧ blockIsReset t ∧ t.host.mode = .running ∧
      t.host.program = next ∧ t.host.reads = [] ∧ t.schedule = s.schedule) ∧
    (∀ v : Word, v.getLsbD 0 = true →
      ∃ t, writeReg .ctrl v s = .ok t ∧ blockIsReset t ∧ t.host.mode = .running ∧ t.host.program = s.host.program ∧
        t.host.reads = [] ∧ t.schedule = s.schedule ∧ t.draws = s.draws)

/-- R26: a write of CTRL with bit 0 = 0 has no effect, one with bit 0 = 1 resets the block; a read gives 0. -/
def Obligations.CtrlWriteOneResets : Prop :=
  ∀ (s : State) (v : Word),
    readReg .ctrl s = 0 ∧
    (v.getLsbD 0 = false → writeReg .ctrl v s = .ok s) ∧
    (v.getLsbD 0 = true → ∃ t, writeReg .ctrl v s = .ok t ∧ blockIsReset t) ∧ readReg .ctrl State.reset = 0

/-- R28: a write of CMD is refused while BUSY = 1, dropped while FAULT = 1, and else latches any word and sets BUSY. -/
def Obligations.CmdWriteRefusedDroppedOrLatched : Prop :=
  ∀ (s : State) (v : Word),
    (s.status.busy = true → writeReg .cmd v s = .error .cmdWriteBusy) ∧
    (s.status.busy = false → s.status.fault = true → writeReg .cmd v s = .ok s) ∧
    (s.status.busy = false → s.status.fault = false →
      writeReg .cmd v s = .ok { s with latch := v, status := { s.status with busy := true } })

/-- R31: operand slots are written while BUSY = 0 whatever FAULT is, a write while BUSY = 1 is refused, a read gives the
slot, reset gives 0, and no command writes one. -/
def Obligations.OperandSlotRules : Prop :=
  (∀ (s : State) (i : Fin 16) (v : Word),
    readReg (.a i) s = s.a[i] ∧
    (s.status.busy = true → writeReg (.a i) v s = .error .operandWriteBusy) ∧
    (s.status.busy = false →
      ∃ t, writeReg (.a i) v s = .ok t ∧ t.a[i] = v ∧ (∀ j : Fin 16, j ≠ i → t.a[j] = s.a[j]) ∧
        t.latch = s.latch ∧ t.status = s.status ∧ t.z = s.z ∧ t.host = s.host ∧ t.schedule = s.schedule ∧
        t.draws = s.draws)) ∧
  (∀ i : Fin 16, State.reset.a[i] = 0) ∧
  (∀ (i : Instr) (s t : State), exec i s = .next t → t.a = s.a)

/-- R24, R25, R32: what a read of CMD, STATUS and a result slot gives. The fields of STATUS stand at the bits R25 says, CAUSE
with the codes of R250, all other bits 0. A read of Z[i] while BUSY = 1 gives the free value of the counter, which then moves
on (the model's form of U3, log 8); writes of STATUS and Z are ignored. -/
def Obligations.ReadsAndIgnoredWrites : Prop :=
  ∀ (s : State) (i : Fin 16) (v : Word),
    readReg .cmd s = s.latch ∧
    (readReg .status s).toNat =
      (if s.status.busy then 1 else 0) + (if s.status.fault then 2 else 0) + codeOf s.status.cause * 16
        + s.status.faultOpc.toNat * 256 + s.status.faultInfo.toNat * 65536 ∧
    (s.status.busy = false → readReg (.z i) s = s.z[i] ∧ countDraw (.z i) s = s) ∧
    (s.status.busy = true →
      readReg (.z i) s = Config.busyRead s.draws ∧ countDraw (.z i) s = { s with draws := s.draws + 1 }) ∧
    writeReg .status v s = .ok s ∧ writeReg (.z i) v s = .ok s

/-- The host's turn of `WR <reg>, <value>` and `RD <reg>` (R98), the 64-bit accesses at BASE plus the offset of R51, reaches
that register, for any BASE, a multiple of 512: a write has the effect of the write of that register, or marks the host
refused and leaves the block as it was; a read gives the register's value to the host and changes no register. That the
operation is taken off the program in each case is the model's form (log 1, log 6). -/
def Obligations.HostTurnReachesNamedRegister : Prop :=
  ∀ (s : State) (r : Reg) (v : Word) (rest : List HostOp), s.host.mode = .running →
    Config.base % 512 = 0 ∧ wr r v = .write (Config.base + offsetOf r) 8 v ∧ rd r = .read (Config.base + offsetOf r) 8 ∧
    (s.host.program = .write (Config.base + offsetOf r) 8 v :: rest →
      ∃ t, takeTurn .host s = .next t ∧
        (∀ u, writeReg r v (setProgram rest s) = .ok u → t = u) ∧
        (∀ why, writeReg r v (setProgram rest s) = .error why →
          t.host.mode = .refused why ∧ sameBlock s t ∧ t.host.program = rest ∧ t.host.reads = s.host.reads)) ∧
    (s.host.program = .read (Config.base + offsetOf r) 8 :: rest →
      ∃ t, takeTurn .host s = .next t ∧ sameBlock s t ∧ t.host.mode = .running ∧ t.host.program = rest ∧
        t.host.reads = s.host.reads ++ [readReg r s])

/-- R52, R53, R286: an access of another width, at an offset that is no multiple of 8, or at an unmapped offset of the
window is refused and has no effect on the block; the host is marked refused. An access outside the window is refused too
(log 7). The mapped offsets are those of R51. -/
def Obligations.BadAccessesAreRefused : Prop :=
  ∀ (s : State) (addr bytes : Nat) (v : Word) (rest : List HostOp), s.host.mode = .running →
    ¬ (bytes = 8 ∧ ∃ off, addr = Config.base + off ∧ off % 8 = 0 ∧
        (off ≤ 0x10 ∨ 0x80 ≤ off ∧ off ≤ 0xF8 ∨ 0x100 ≤ off ∧ off ≤ 0x178)) →
    (s.host.program = .read addr bytes :: rest ∨ s.host.program = .write addr bytes v :: rest) →
    ∃ t why, takeTurn .host s = .next t ∧ t.host.mode = .refused why ∧ sameBlock s t ∧ t.host.reads = s.host.reads

/-- A refused host takes no further step: its turn changes nothing (R285, R286). That the turn is spent, and that the step of
a machine whose datapath has nothing to do either answers the same state, are the model's choices (log 4, log 3). -/
def Obligations.RefusedHostTakesNoStep : Prop :=
  ∀ (s : State) (why : RefusedAccess), s.host.mode = .refused why →
    takeTurn .host s = .next s ∧ (s.status.busy = false → s.schedule = [] → step s = .next s)

/-- R99: POLL reads STATUS and goes on polling while BUSY = 1; CHECK reads STATUS and stops the host program with an error
exactly if FAULT = 1. Neither changes a register of the block. That POLL is one recorded read of STATUS a step and that a
failing CHECK leaves nothing of the program to do are the model's form (log 14, log 15). -/
def Obligations.PollAndCheckFollowStatus : Prop :=
  ∀ (s : State) (rest : List HostOp), s.host.mode = .running →
    (s.host.program = .poll :: rest →
      ∃ t, takeTurn .host s = .next t ∧ sameBlock s t ∧ t.host.mode = .running ∧
        t.host.reads = s.host.reads ++ [readReg .status s] ∧
        t.host.program = if (readReg .status s).getLsbD 0 then .poll :: rest else rest) ∧
    (s.host.program = .check :: rest →
      ∃ t, takeTurn .host s = .next t ∧ sameBlock s t ∧
        t.host.reads = s.host.reads ++ [readReg .status s] ∧
        if (readReg .status s).getLsbD 1 then t.host.mode = .failed ∧ t.host.program = []
        else t.host.mode = .running ∧ t.host.program = rest)

/-! ### The datapath step and faults -/

/-- A step runs the decoded command: with BUSY = 1 and a word that decodes, the step of the datapath's turn is `exec` of
that command at the same state, but for the turn taken off the schedule. Where the schedule is empty the datapath moves if
the host cannot, and else the free choice decides between the two: it goes to the host an unspecified, finite number of times
and then to the datapath (log 2, log 13). -/
def Obligations.StepRunsDecodedCommand : Prop :=
  ∀ (s : State) (i : Instr), s.status.busy = true → decode s.latch = .instr i →
    (∀ rest, s.schedule = .datapath :: rest → step s = exec i { s with schedule := rest }) ∧
    (s.schedule = [] → hostEnabled s = false → step s = exec i s) ∧
    (s.schedule = [] → hostEnabled s = true →
      step s = if Config.latency s.grants ≤ s.passed then exec i { s with grants := s.grants + 1, passed := 0 }
        else .next (hostStep { s with passed := s.passed + 1 }))

/-- R83, R84, R85, R251: a word with a reserved bit set, an undefined OPC, or a WIDTH or LSB its row requires to be 0 is
ILLEGAL: its datapath step records ILLEGAL(0), whatever the operand slots hold; every other word decodes to a command. -/
def Obligations.IllegalWordsRecordIllegal : Prop :=
  ∀ s : State,
    (legalWord s.latch = false → datapathStep s = .next (afterFault s .illegal 0)) ∧
    (legalWord s.latch = true → ∃ i, decode s.latch = .instr i ∧ datapathStep s = exec i s)

/-- The invariant: STATUS is legal beside LATCH (R25, R250, R252, R253, R254), from every state that meets it. -/
def Obligations.StepKeepsStatusLegal : Prop :=
  ∀ s t : State, LegalState s → step s = .next t → LegalState t

/-- Every command's datapath step ends in a next state, and touches only the result slots and STATUS: on success STATUS
keeps all but BUSY; on a fault no result slot is written and the record is the one R253 gives, a fault that R252 lists for
the command. BUSY is 0 after it. -/
def Obligations.CommandsTouchOnlyResultsAndStatus : Prop :=
  ∀ (i : Instr) (s : State), ∃ t, exec i s = .next t ∧
    t.a = s.a ∧ t.latch = s.latch ∧ t.host = s.host ∧ t.schedule = s.schedule ∧ t.draws = s.draws ∧
    t.grants = s.grants ∧ t.passed = s.passed ∧
    ((∃ z, t = afterSuccess s z) ∨ (∃ c info, t = afterFault s c info ∧ info < 16 ∧ mayRaise i c info = true))

/-- R30: what a command does depends only on LATCH and the operand slots: two states that agree there both succeed, with
the same results, or both record the same fault. -/
def Obligations.CommandsDependOnLatchAndOperands : Prop :=
  ∀ (i : Instr) (s1 s2 t1 t2 : State), s1.latch = s2.latch → s1.a = s2.a →
    exec i s1 = .next t1 → exec i s2 = .next t2 →
    (∃ z, t1 = afterSuccess s1 z ∧ t2 = afterSuccess s2 z) ∨
    (∃ c info, t1 = afterFault s1 c info ∧ t2 = afterFault s2 c info)

/-- R254, R258: once a fault is recorded, a step leaves LATCH, STATUS and the result slots as they are, or it is a reset:
the external one, or a host write of CTRL with bit 0 = 1. In every state that meets the invariant. -/
def Obligations.FaultsAreStickyUntilReset : Prop :=
  ∀ s t : State, LegalState s → s.status.fault = true → step s = .next t →
    (t.latch = s.latch ∧ t.status = s.status ∧ t.z = s.z) ∨
    (blockIsReset t ∧
      ((∃ next rest, s.schedule = .reset next :: rest) ∨
        ∃ v rest, s.host.program = .write (Config.base + 0x10) 8 v :: rest ∧ v.getLsbD 0 = true))

/-- U15: the external reset in the middle of a host access is the one turn on which the machine is stuck (log 10). -/
def Obligations.OnlyResetInsideAccessIsStuck : Prop :=
  ∀ s : State,
    ((∃ rest, s.schedule = .resetDuringAccess :: rest) → step s = .fault .resetDuringAccess) ∧
    ((¬ ∃ rest, s.schedule = .resetDuringAccess :: rest) → ∃ t, step s = .next t)

/-! ### Encoding -/

/-- Decoding the word of a well-formed command gives the command back, with every operand. -/
def Obligations.DecodeOfEncode : Prop :=
  ∀ i : Instr, i.wellFormed = true → decode (encode i) = .instr i

/-- Every command word is unique: a word that decodes is the word of its command, which is well formed. -/
def Obligations.EncodeOfDecode : Prop :=
  ∀ (cmd : Word) (i : Instr), decode cmd = .instr i → i.wellFormed = true ∧ encode i = cmd

/-- Words written out from R80, R81 and R96 decode to the commands they stand for. -/
def Obligations.SampleWordsDecode : Prop :=
  decode 0x00000000 = .instr .nop ∧ decode 0x00000002 = .instr .cscInv ∧ decode 0x00000003 = .instr .blkFwd ∧
  decode 0x00000006 = .instr .dctInv ∧ decode 0x00000011 = .instr .qbcd ∧ decode 0x000B8922 = .instr (.getu 9 23) ∧
  decode 0x00090525 = .instr (.news 5 18) ∧ decode 0x00000031 = .instr .cwUnpack ∧
  decode 0x00000040 = .instr .encBlock

/-! ### Results of the commands -/

/-- R200: NOP clears every result slot and never faults; its word is 0 and no other, and that word is dropped while
FAULT = 1. -/
def Obligations.NopClearsResults : Prop :=
  (∀ cmd : Word, decode cmd = .instr .nop ↔ cmd = 0) ∧
  ∀ s : State, exec .nop s = .next (afterSuccess s (slots1 0)) ∧
    (s.status.busy = false → s.status.fault = true → writeReg .cmd 0 s = .ok s)

/-- R110, R112: CSC_FWD writes Y, Pb, Pr of the pixel exactly and never faults. -/
def Obligations.CscFwdWritesExactYPbPr : Prop :=
  decode 0x00000001 = .instr .cscFwd ∧
  ∀ s : State, ∃ y pb pr : Word,
    exec .cscFwd s = .next (afterSuccess s (slots6 y pb pr 0 0 0)) ∧
    qv y = luma s.a[0] ∧ qv pb = chromaB s.a[0] ∧ qv pr = chromaR s.a[0]

/-- The integer form of CSC_FWD in QV units, and its ranges (inferences of the spec: R114, R116). -/
def Obligations.CscFwdIntegerForm : Prop :=
  ∀ s : State, ∃ y pb pr : Word,
    exec .cscFwd s = .next (afterSuccess s (slots6 y pb pr 0 0 0)) ∧
    y.toInt = 2044000 * (299 * red s.a[0] + 587 * green s.a[0] + 114 * blue s.a[0]) ∧
    pb.toInt = 2044 * (-168736 * red s.a[0] - 331264 * green s.a[0] + 500000 * blue s.a[0]) ∧
    pr.toInt = 2044 * (500000 * red s.a[0] - 418688 * green s.a[0] - 81312 * blue s.a[0]) ∧
    0 ≤ y.toInt ∧ y.toInt ≤ 521220000000 ∧ |pb.toInt| ≤ 260610000000 ∧ |pr.toInt| ≤ 260610000000

/-- R111, R113: CSC_INV writes the truncated, clamped channels and never faults. -/
def Obligations.CscInvWritesClampedPixel : Prop :=
  decode 0x00000002 = .instr .cscInv ∧
  ∀ s : State, exec .cscInv s = .next (afterSuccess s (slots1 (rgb (qv s.a[0]) (qv s.a[1]) (qv s.a[2]))))

/-- The integer form of CSC_INV (an inference of the spec: R115). -/
def Obligations.CscInvIntegerForm : Prop :=
  ∀ s : State,
    let ny := s.a[0].toInt
    let nb := s.a[1].toInt
    let nr := s.a[2].toInt
    let clamp255 := fun v : Int => max 0 (min 255 v)
    exec .cscInv s = .next (afterSuccess s (slots1 (pix
      (clamp255 (255 * (1000 * ny + 1402 * nr) / (1000 * 521220000000)))
      (clamp255 (255 * (1000000 * ny - 344136 * nb - 714136 * nr) / (1000000 * 521220000000)))
      (clamp255 (255 * (1000 * ny + 1772 * nb) / (1000 * 521220000000))))))

/-- R130: BLK_FWD copies the luma values and averages the chroma exactly; RANGE(4), then RANGE(5), where an average is off
the QV grid. -/
def Obligations.BlkFwdAveragesChroma : Prop :=
  decode 0x00000003 = .instr .blkFwd ∧
  ∀ s : State,
    let sb := s.a[1].toInt + s.a[4].toInt + s.a[7].toInt + s.a[10].toInt
    let sr := s.a[2].toInt + s.a[5].toInt + s.a[8].toInt + s.a[11].toInt
    (4 ∣ sb → 4 ∣ sr →
      ∃ pb pr : Word, exec .blkFwd s = .next (afterSuccess s (slots6 s.a[0] s.a[3] s.a[6] s.a[9] pb pr)) ∧
        4 * pb.toInt = sb ∧ 4 * pr.toInt = sr) ∧
    (¬ 4 ∣ sb → exec .blkFwd s = .next (afterFault s .range 4)) ∧
    (4 ∣ sb → ¬ 4 ∣ sr → exec .blkFwd s = .next (afterFault s .range 5))

/-- R131: BLK_INV broadcasts the chroma pair to the four pixels, bit for bit. -/
def Obligations.BlkInvBroadcastsChroma : Prop :=
  decode 0x00000004 = .instr .blkInv ∧
  ∀ s : State, exec .blkInv s = .next (afterSuccess s
    #v[s.a[0], s.a[4], s.a[5], s.a[1], s.a[4], s.a[5], s.a[2], s.a[4], s.a[5], s.a[3], s.a[4], s.a[5], 0, 0, 0, 0])

/-- R140, R142: DCT_FWD writes the quarter sums exactly and passes the chroma through; RANGE(j) for the first sum that is no
multiple of 4. -/
def Obligations.DctFwdWritesQuarterSums : Prop :=
  decode 0x00000005 = .instr .dctFwd ∧
  ∀ s : State,
    let y1 := s.a[0].toInt
    let y2 := s.a[1].toInt
    let y3 := s.a[2].toInt
    let y4 := s.a[3].toInt
    let sums : Vector Int 4 := #v[y1 + y2 + y3 + y4, y4 + y3 - y2 - y1, y4 - y3 + y2 - y1, y4 - y3 - y2 + y1]
    ((∀ j : Fin 4, 4 ∣ sums[j]) →
      ∃ z0 z1 z2 z3 : Word, exec .dctFwd s = .next (afterSuccess s (slots6 z0 z1 z2 z3 s.a[4] s.a[5])) ∧
        (4 : Int) * z0.toInt = sums[0] ∧ (4 : Int) * z1.toInt = sums[1] ∧ (4 : Int) * z2.toInt = sums[2] ∧ (4 : Int) * z3.toInt = sums[3]) ∧
    (∀ j : Fin 4, ¬ 4 ∣ sums[j] → (∀ k : Fin 4, k < j → 4 ∣ sums[k]) →
      exec .dctFwd s = .next (afterFault s .range j.val))

/-- R141, R143: DCT_INV writes the signed sums and passes the chroma through; RANGE(j) for the first sum outside the signed
64-bit range. -/
def Obligations.DctInvWritesSums : Prop :=
  decode 0x00000006 = .instr .dctInv ∧
  ∀ s : State,
    let a := s.a[0].toInt
    let b := s.a[1].toInt
    let c := s.a[2].toInt
    let d := s.a[3].toInt
    let sums : Vector Int 4 := #v[a - b - c + d, a - b + c - d, a + b - c - d, a + b + c + d]
    let inRange := fun n : Int => -0x8000000000000000 ≤ n ∧ n ≤ 0x7FFFFFFFFFFFFFFF
    ((∀ j : Fin 4, inRange sums[j]) →
      ∃ z0 z1 z2 z3 : Word, exec .dctInv s = .next (afterSuccess s (slots6 z0 z1 z2 z3 s.a[4] s.a[5])) ∧
        z0.toInt = sums[0] ∧ z1.toInt = sums[1] ∧ z2.toInt = sums[2] ∧ z3.toInt = sums[3]) ∧
    (∀ j : Fin 4, ¬ inRange sums[j] → (∀ k : Fin 4, k < j → inRange sums[k]) →
      exec .dctInv s = .next (afterFault s .range j.val))

/-- The transform and its inverse are inverse over the rationals, both ways, and on the block where the forward command
does not fault: DCT_INV of the results of DCT_FWD gives the operands back, bit for bit (section 1 of
spec/42_block_transform.md, and the same at the QV ports). -/
def Obligations.DctRoundTripIsExact : Prop :=
  (∀ y1 y2 y3 y4 : ℚ, dctInverse (dctForward y1 y2 y3 y4) = { y1 := y1, y2 := y2, y3 := y3, y4 := y4 }) ∧
  (∀ k : Coeffs, dctForward (dctInverse k).y1 (dctInverse k).y2 (dctInverse k).y3 (dctInverse k).y4 = k) ∧
  ∀ s : State,
    let y1 := s.a[0].toInt
    let y2 := s.a[1].toInt
    let y3 := s.a[2].toInt
    let y4 := s.a[3].toInt
    4 ∣ y1 + y2 + y3 + y4 → 4 ∣ y4 + y3 - y2 - y1 → 4 ∣ y4 - y3 + y2 - y1 →
    ∃ t u : State, exec .dctFwd s = .next t ∧ exec .dctInv (withA s t.z) = .next u ∧
      u = afterSuccess (withA s t.z) (slots6 s.a[0] s.a[1] s.a[2] s.a[3] s.a[4] s.a[5])

/-- R150, R151, R152, R156, R157, R158: QA, QBCD and QC clamp, scale and round to nearest, ties away from zero; they never
fault. -/
def Obligations.QuantizersClampAndRound : Prop :=
  decode 0x00000010 = .instr .qa ∧ decode 0x00000011 = .instr .qbcd ∧ decode 0x00000012 = .instr .qc ∧
  ∀ s : State,
    let x := qv s.a[0]
    let x03 := max (-(3 / 10)) (min (3 / 10) x)
    (∃ q : Int, exec .qa s = .next (afterSuccess s (slots1 (BitVec.ofInt 64 q))) ∧ 0 ≤ q ∧ q ≤ 511 ∧
      nearest (511 * max 0 (min 1 x)) q) ∧
    (∃ q : Int, exec .qbcd s = .next (afterSuccess s (slots1 (BitVec.ofInt 64 q))) ∧ -15 ≤ q ∧ q ≤ 15 ∧
      nearest (50 * x03) q) ∧
    (∃ q : Int, exec .qc s = .next (afterSuccess s (slots1 (BitVec.ofInt 64 q))) ∧ 0 ≤ q ∧ q ≤ 15 ∧
      nearest ((x03 - (-(3 / 10))) / (6 / 10) * 15) q)

/-- R153, R154, R155, R159, R160, R161: DQA, DQBCD and DQC read the field of A0 and write its value exactly; they never
fault. -/
def Obligations.DequantizersWriteExactValue : Prop :=
  decode 0x00000013 = .instr .dqa ∧ decode 0x00000014 = .instr .dqbcd ∧ decode 0x00000015 = .instr .dqc ∧
  ∀ s : State,
    (∃ z : Word, exec .dqa s = .next (afterSuccess s (slots1 z)) ∧ qv z = ((s.a[0].toNat % 512 : Nat) : ℚ) / 511) ∧
    (∃ z : Word, exec .dqbcd s = .next (afterSuccess s (slots1 z)) ∧ qv z = (signedField s.a[0] 5 0 : ℚ) / 50) ∧
    (∃ z : Word, exec .dqc s = .next (afterSuccess s (slots1 z)) ∧
      qv z = -(3 / 10 : ℚ) + ((s.a[0].toNat % 16 : Nat) : ℚ) / 15 * (6 / 10))

/-- The integer forms of the quantizers and dequantizers in QV units (inferences of the spec: R162). -/
def Obligations.QuantizerIntegerForms : Prop :=
  ∀ s : State,
    let n := s.a[0].toInt
    let m := 50 * max (-156366000000) (min 156366000000 n)
    exec .qa s = .next (afterSuccess s (slots1 (BitVec.ofInt 64
      ((1022 * max 0 (min 521220000000 n) + 521220000000) / (2 * 521220000000))))) ∧
    exec .qbcd s = .next (afterSuccess s (slots1 (BitVec.ofInt 64
      (if 0 ≤ m then (2 * m + 521220000000) / (2 * 521220000000)
        else -((2 * (-m) + 521220000000) / (2 * 521220000000)))))) ∧
    exec .qc s = .next (afterSuccess s (slots1 (BitVec.ofInt 64
      ((m + 16 * 521220000000) / (2 * 521220000000))))) ∧
    exec .dqa s = .next (afterSuccess s (slots1 (BitVec.ofInt 64 ((s.a[0].toNat % 512 : Nat) * 1020000000)))) ∧
    exec .dqbcd s = .next (afterSuccess s (slots1 (BitVec.ofInt 64 (signedField s.a[0] 5 0 * 10424400000)))) ∧
    exec .dqc s = .next (afterSuccess s (slots1 (BitVec.ofInt 64
      ((-156366000000 : Int) + (20848800000 : Int) * ((s.a[0].toNat % 16 : Nat) : Int)))))

/-- R163: dequantizing what a quantizer wrote is within half a step of the operand, inside the clamp domain. -/
def Obligations.QuantizerErrorIsBounded : Prop :=
  ∀ s : State,
    let x := qv s.a[0]
    (0 ≤ x → x ≤ 1 → ∃ t u : State, exec .qa s = .next t ∧ exec .dqa (withA s t.z) = .next u ∧
      |qv u.z[0] - x| ≤ 1 / (2 * 511)) ∧
    (-(3 / 10) ≤ x → x ≤ (3 / 10) → ∃ t u : State, exec .qbcd s = .next t ∧ exec .dqbcd (withA s t.z) = .next u ∧
      |qv u.z[0] - x| ≤ 1 / (2 * 50)) ∧
    (-(3 / 10) ≤ x → x ≤ (3 / 10) → ∃ t u : State, exec .qc s = .next t ∧ exec .dqc (withA s t.z) = .next u ∧
      |qv u.z[0] - x| ≤ ((6 / 10) / 15) / 2)

/-- R170, R171, R177, R178: FITSU and FITSS answer whether the operand lies in the range of a field of w bits;
CONTRACT(0) where w > 64. The word with LSB ≠ 0 is ILLEGAL. -/
def Obligations.FitsAnswersRange : Prop :=
  (∀ w l : Nat, w < 128 → l < 128 →
    (decode (BitVec.ofNat 64 (l * 2 ^ 15 + w * 2 ^ 8 + 0x20)) =
      if l = 0 then .instr (.fitsu w) else .illegal .lsbNotZero) ∧
    (decode (BitVec.ofNat 64 (l * 2 ^ 15 + w * 2 ^ 8 + 0x21)) =
      if l = 0 then .instr (.fitss w) else .illegal .lsbNotZero)) ∧
  ∀ (s : State) (w : Nat),
    (w ≤ 64 → exec (.fitsu w) s = .next (afterSuccess s (slots1 (if s.a[0].toNat < 2 ^ w then 1 else 0)))) ∧
    (64 < w → exec (.fitsu w) s = .next (afterFault s .contract 0)) ∧
    (w = 0 → exec (.fitss w) s = .next (afterSuccess s (slots1 (if s.a[0] = 0 then 1 else 0)))) ∧
    (0 < w → w ≤ 64 → exec (.fitss w) s = .next (afterSuccess s (slots1
      (if -((2 : Int) ^ (w - 1)) ≤ s.a[0].toInt ∧ s.a[0].toInt ≤ 2 ^ (w - 1) - 1 then 1 else 0)))) ∧
    (64 < w → exec (.fitss w) s = .next (afterFault s .contract 0))

/-- R172, R173, R179, R180: bit i of the result of GETU is bit l + i of the word below w and 0 above; GETS repeats the
field's top bit above, and gives 0 for w = 0; CONTRACT(0) where w > 64 or w + l > 64. -/
def Obligations.GetExtractsField : Prop :=
  (∀ w l : Nat, w < 128 → l < 128 →
    decode (BitVec.ofNat 64 (l * 2 ^ 15 + w * 2 ^ 8 + 0x22)) = .instr (.getu w l) ∧
    decode (BitVec.ofNat 64 (l * 2 ^ 15 + w * 2 ^ 8 + 0x23)) = .instr (.gets w l)) ∧
  ∀ (s : State) (w l : Nat),
    (w ≤ 64 → w + l ≤ 64 →
      (∃ v : Word, exec (.getu w l) s = .next (afterSuccess s (slots1 v)) ∧
        ∀ i < 64, v.getLsbD i = (decide (i < w) && s.a[0].getLsbD (l + i))) ∧
      (∃ v : Word, exec (.gets w l) s = .next (afterSuccess s (slots1 v)) ∧
        ∀ i < 64, v.getLsbD i = (decide (0 < w) && s.a[0].getLsbD (l + min i (w - 1))))) ∧
    (64 < w ∨ 64 < w + l →
      exec (.getu w l) s = .next (afterFault s .contract 0) ∧ exec (.gets w l) s = .next (afterFault s .contract 0))

/-- R174, R175, R181: NEWU and NEWS replace bits l + w - 1 to l of A0 by the low w bits of A1 and keep every other bit;
CONTRACT(0) first, then OVERFLOW(1) where the value does not fit. -/
def Obligations.NewReplacesField : Prop :=
  (∀ w l : Nat, w < 128 → l < 128 →
    decode (BitVec.ofNat 64 (l * 2 ^ 15 + w * 2 ^ 8 + 0x24)) = .instr (.newu w l) ∧
    decode (BitVec.ofNat 64 (l * 2 ^ 15 + w * 2 ^ 8 + 0x25)) = .instr (.news w l)) ∧
  ∀ (s : State) (w l : Nat),
    let fitsUnsigned := s.a[1].toNat < 2 ^ w
    let fitsSigned := if w = 0 then s.a[1] = 0 else -((2 : Int) ^ (w - 1)) ≤ s.a[1].toInt ∧ s.a[1].toInt ≤ 2 ^ (w - 1) - 1
    let inserted := fun v : Word =>
      ∀ i < 64, v.getLsbD i = if l ≤ i ∧ i < l + w then s.a[1].getLsbD (i - l) else s.a[0].getLsbD i
    (w ≤ 64 → w + l ≤ 64 → fitsUnsigned →
      ∃ v : Word, exec (.newu w l) s = .next (afterSuccess s (slots1 v)) ∧ inserted v) ∧
    (w ≤ 64 → w + l ≤ 64 → ¬ fitsUnsigned → exec (.newu w l) s = .next (afterFault s .overflow 1)) ∧
    (w ≤ 64 → w + l ≤ 64 → fitsSigned →
      ∃ v : Word, exec (.news w l) s = .next (afterSuccess s (slots1 v)) ∧ inserted v) ∧
    (w ≤ 64 → w + l ≤ 64 → ¬ fitsSigned → exec (.news w l) s = .next (afterFault s .overflow 1)) ∧
    (64 < w ∨ 64 < w + l →
      exec (.newu w l) s = .next (afterFault s .contract 0) ∧ exec (.news w l) s = .next (afterFault s .contract 0))

/-- The get and new laws of the source on the block (R182 says that the rules satisfy them): a value that fits is read back
from the word it was inserted into. -/
def Obligations.GetOfNewGivesValue : Prop :=
  ∀ (s : State) (w l : Nat), w ≤ 64 → w + l ≤ 64 →
    (s.a[1].toNat < 2 ^ w → ∃ t u : State, exec (.newu w l) s = .next t ∧
      exec (.getu w l) (withA s t.z) = .next u ∧ u.z[0] = s.a[1]) ∧
    ((if w = 0 then s.a[1] = 0 else -((2 : Int) ^ (w - 1)) ≤ s.a[1].toInt ∧ s.a[1].toInt ≤ 2 ^ (w - 1) - 1) →
      ∃ t u : State, exec (.news w l) s = .next t ∧ exec (.gets w l) (withA s t.z) = .next u ∧ u.z[0] = s.a[1])

/-- R190, R192: CW_PACK writes the codeword of six fields that fit; OVERFLOW(k) for the first field in pack order that does
not. -/
def Obligations.CwPackWritesCodeword : Prop :=
  decode 0x00000030 = .instr .cwPack ∧
  ∀ s : State,
    let fits : Vector Bool 6 := #v[s.a[0].toNat ≤ 511,
      -16 ≤ s.a[1].toInt && s.a[1].toInt ≤ 15, -16 ≤ s.a[2].toInt && s.a[2].toInt ≤ 15,
      -16 ≤ s.a[3].toInt && s.a[3].toInt ≤ 15, s.a[4].toNat ≤ 15, s.a[5].toNat ≤ 15]
    ((∀ k : Fin 6, fits[k] = true) →
      exec .cwPack s = .next (afterSuccess s (slots1
        (codeword s.a[0].toNat s.a[1].toInt s.a[2].toInt s.a[3].toInt s.a[4].toNat s.a[5].toNat)))) ∧
    (∀ k : Fin 6, fits[k] = false → (∀ j : Fin 6, j < k → fits[j] = true) →
      exec .cwPack s = .next (afterFault s .overflow k.val))

/-- R191, R193: CW_UNPACK writes the six fields of bits 31:0, b, c and d sign-extended, and never faults. -/
def Obligations.CwUnpackWritesFields : Prop :=
  decode 0x00000031 = .instr .cwUnpack ∧
  ∀ s : State, exec .cwUnpack s = .next (afterSuccess s (slots6
    (BitVec.ofNat 64 (s.a[0].toNat / 2 ^ 23 % 512)) (BitVec.ofInt 64 (signedField s.a[0] 5 18))
    (BitVec.ofInt 64 (signedField s.a[0] 5 13)) (BitVec.ofInt 64 (signedField s.a[0] 5 8))
    (BitVec.ofNat 64 (s.a[0].toNat / 2 ^ 4 % 16)) (BitVec.ofNat 64 (s.a[0].toNat % 16))))

/-- Packing and unpacking are inverse on the block (an inference of the spec: R194): unpacking what CW_PACK wrote gives the
six operands back, and packing what CW_UNPACK wrote gives the codeword back. -/
def Obligations.PackAndUnpackAreInverse : Prop :=
  (∀ s t : State, exec .cwPack s = .next t → t.status.fault = false →
    exec .cwUnpack (withA s t.z) = .next (afterSuccess (withA s t.z)
      (slots6 s.a[0] s.a[1] s.a[2] s.a[3] s.a[4] s.a[5]))) ∧
  (∀ s t : State, exec .cwUnpack s = .next t →
    exec .cwPack (withA s t.z) = .next (afterSuccess (withA s t.z) (slots1 (BitVec.ofNat 64 (s.a[0].toNat % 2 ^ 32)))))

/-- R201, R203: ENC_BLOCK writes the codeword of the four pixels, computed in exact rationals, and never faults. -/
def Obligations.EncBlockWritesCodeword : Prop :=
  decode 0x00000040 = .instr .encBlock ∧
  ∀ s : State,
    let y1 := luma s.a[0]
    let y2 := luma s.a[1]
    let y3 := luma s.a[2]
    let y4 := luma s.a[3]
    let pb := (chromaB s.a[0] + chromaB s.a[1] + chromaB s.a[2] + chromaB s.a[3]) / 4
    let pr := (chromaR s.a[0] + chromaR s.a[1] + chromaR s.a[2] + chromaR s.a[3]) / 4
    let clamp03 := fun x : ℚ => max (-(3 / 10)) (min (3 / 10) x)
    ∃ fa fb fc fd fpb fpr : Int,
      exec .encBlock s = .next (afterSuccess s (slots1 (codeword fa fb fc fd fpb fpr))) ∧
      nearest (511 * max 0 (min 1 ((y1 + y2 + y3 + y4) / 4))) fa ∧
      nearest (50 * clamp03 ((y4 + y3 - y2 - y1) / 4)) fb ∧
      nearest (50 * clamp03 ((y4 - y3 + y2 - y1) / 4)) fc ∧
      nearest (50 * clamp03 ((y4 - y3 - y2 + y1) / 4)) fd ∧
      nearest ((clamp03 pb + (3 / 10)) / (6 / 10) * 15) fpb ∧ nearest ((clamp03 pr + (3 / 10)) / (6 / 10) * 15) fpr

/-- R202, R204: DEC_BLOCK writes the four pixels of the codeword in bits 31:0 and never faults. -/
def Obligations.DecBlockWritesPixels : Prop :=
  decode 0x00000041 = .instr .decBlock ∧
  ∀ s : State,
    let a : ℚ := ((s.a[0].toNat / 2 ^ 23 % 512 : Nat) : ℚ) / 511
    let b : ℚ := (signedField s.a[0] 5 18 : ℚ) / 50
    let c : ℚ := (signedField s.a[0] 5 13 : ℚ) / 50
    let d : ℚ := (signedField s.a[0] 5 8 : ℚ) / 50
    let pb : ℚ := -(3 / 10 : ℚ) + ((s.a[0].toNat / 2 ^ 4 % 16 : Nat) : ℚ) / 15 * (6 / 10)
    let pr : ℚ := -(3 / 10 : ℚ) + ((s.a[0].toNat % 16 : Nat) : ℚ) / 15 * (6 / 10)
    exec .decBlock s = .next (afterSuccess s (slots4
      (rgb (a - b - c + d) pb pr) (rgb (a - b + c - d) pb pr)
      (rgb (a + b - c - d) pb pr) (rgb (a + b + c + d) pb pr)))

/-- The compress stage chain gives the codeword of ENC_BLOCK, and no stage faults (an inference of the spec: R205). The host
copies each stage's results into the next stage's operand slots. -/
def Obligations.EncBlockEqualsStageChain : Prop :=
  ∀ s : State, s.status.fault = false →
    ∃ t1 t2 t3 t4 tb td ta tbb tc tdd tpb tpr tp te : State,
      exec .cscFwd (withA s (slots1 s.a[0])) = .next t1 ∧
      exec .cscFwd (withA s (slots1 s.a[1])) = .next t2 ∧
      exec .cscFwd (withA s (slots1 s.a[2])) = .next t3 ∧
      exec .cscFwd (withA s (slots1 s.a[3])) = .next t4 ∧
      exec .blkFwd (withA s #v[t1.z[0], t1.z[1], t1.z[2], t2.z[0], t2.z[1], t2.z[2], t3.z[0], t3.z[1], t3.z[2],
        t4.z[0], t4.z[1], t4.z[2], 0, 0, 0, 0]) = .next tb ∧
      exec .dctFwd (withA s (slots6 tb.z[0] tb.z[1] tb.z[2] tb.z[3] tb.z[4] tb.z[5])) = .next td ∧
      exec .qa (withA s (slots1 td.z[0])) = .next ta ∧
      exec .qbcd (withA s (slots1 td.z[1])) = .next tbb ∧
      exec .qbcd (withA s (slots1 td.z[2])) = .next tc ∧
      exec .qbcd (withA s (slots1 td.z[3])) = .next tdd ∧
      exec .qc (withA s (slots1 td.z[4])) = .next tpb ∧
      exec .qc (withA s (slots1 td.z[5])) = .next tpr ∧
      exec .cwPack (withA s (slots6 ta.z[0] tbb.z[0] tc.z[0] tdd.z[0] tpb.z[0] tpr.z[0])) = .next tp ∧
      exec .encBlock s = .next te ∧ tp.z[0] = te.z[0] ∧
      (∀ t ∈ [t1, t2, t3, t4, tb, td, ta, tbb, tc, tdd, tpb, tpr, tp, te], t.status.fault = false)

/-- The decompress stage chain gives the pixels of DEC_BLOCK, and no stage faults (an inference of the spec: R205). -/
def Obligations.DecBlockEqualsStageChain : Prop :=
  ∀ s : State, s.status.fault = false →
    ∃ tu ta tb tc td tpb tpr ti tv r1 r2 r3 r4 te : State,
      exec .cwUnpack (withA s (slots1 s.a[0])) = .next tu ∧
      exec .dqa (withA s (slots1 tu.z[0])) = .next ta ∧
      exec .dqbcd (withA s (slots1 tu.z[1])) = .next tb ∧
      exec .dqbcd (withA s (slots1 tu.z[2])) = .next tc ∧
      exec .dqbcd (withA s (slots1 tu.z[3])) = .next td ∧
      exec .dqc (withA s (slots1 tu.z[4])) = .next tpb ∧
      exec .dqc (withA s (slots1 tu.z[5])) = .next tpr ∧
      exec .dctInv (withA s (slots6 ta.z[0] tb.z[0] tc.z[0] td.z[0] tpb.z[0] tpr.z[0])) = .next ti ∧
      exec .blkInv (withA s (slots6 ti.z[0] ti.z[1] ti.z[2] ti.z[3] ti.z[4] ti.z[5])) = .next tv ∧
      exec .cscInv (withA s (slots4 tv.z[0] tv.z[1] tv.z[2] 0)) = .next r1 ∧
      exec .cscInv (withA s (slots4 tv.z[3] tv.z[4] tv.z[5] 0)) = .next r2 ∧
      exec .cscInv (withA s (slots4 tv.z[6] tv.z[7] tv.z[8] 0)) = .next r3 ∧
      exec .cscInv (withA s (slots4 tv.z[9] tv.z[10] tv.z[11] 0)) = .next r4 ∧
      exec .decBlock s = .next te ∧
      te.z[0] = r1.z[0] ∧ te.z[1] = r2.z[0] ∧ te.z[2] = r3.z[0] ∧ te.z[3] = r4.z[0] ∧
      (∀ t ∈ [tu, ta, tb, tc, td, tpb, tpr, ti, tv, r1, r2, r3, r4, te], t.status.fault = false)

/-! ### Host framing and runs -/

/-- The framing round trip (an inference of the spec: R222): reading back a written stream gives its dimensions and its
codewords, whatever bytes follow the last one. -/
def Obligations.FramingRoundTrip : Prop :=
  ∀ (w h : Nat) (cws : List Word) (extra : List Byte), 0 < w → w % 2 = 0 → 0 < h → h % 2 = 0 →
    cws.length = w / 2 * (h / 2) → (∀ cw ∈ cws, cw.toNat < 2 ^ 32) →
    parseStream (frameStream w h cws ++ extra) = .ok { width := w, height := h, codewords := cws }

/-- R210, R212, R215, R216: a stream is a format error where its first 33 bytes are not the magic line, where a part of its
dimension line is missing (no digit of the width, no separator, no digit of the height), where its width or height is 0 or
odd, or where its body is too short. The names of the errors and their order are the model's (log 22). -/
def Obligations.BadStreamsAreFormatErrors : Prop :=
  (∀ bs : List Byte, bs.take 33 ≠ magicBytes → parseStream bs = .error .magic) ∧
  (∀ rest : List Byte, startsWithout digit rest → parseStream (magicBytes ++ rest) = .error .widthDigits) ∧
  (∀ ds rest : List Byte, runOf digit ds → startsWithout digit rest → startsWithout separator rest →
    parseStream (magicBytes ++ ds ++ rest) = .error .separator) ∧
  (∀ ds sep rest : List Byte, runOf digit ds → runOf separator sep → startsWithout separator rest →
    startsWithout digit rest → parseStream (magicBytes ++ ds ++ sep ++ rest) = .error .heightDigits) ∧
  (∀ (w h : Nat) (line rest : List Byte), dimensionBytes w h line → startsWithout digit rest →
    w = 0 ∨ w % 2 = 1 ∨ h = 0 ∨ h % 2 = 1 → parseStream (magicBytes ++ line ++ rest) = .error .dimensions) ∧
  (∀ (w h : Nat) (line body : List Byte), dimensionBytes w h line → 0 < w → w % 2 = 0 → 0 < h → h % 2 = 0 →
    body.length < 4 * (w / 2 * (h / 2)) →
    parseStream (magicBytes ++ line ++ [0x0A] ++ body) = .error .prematureEnd ∧
    (startsWithout digit body → body.head? ≠ some 0x0A →
      parseStream (magicBytes ++ line ++ body) = .error .prematureEnd))

/-- R210, R211, R214: the written stream is the 33 bytes of the magic line, the dimension line with no sign and no leading
zero, and four bytes a codeword, most significant first, with nothing between them. The decoder refuses any other first 33
bytes, and reads a body after a written header as (w/2)(h/2) codewords, codeword k from bytes 4k to 4k + 3. -/
def Obligations.WrittenStreamForm : Prop :=
  (∀ (w h : Nat) (cws : List Word), ∃ ws hs : List Byte,
    frameStream w h cws = magicBytes ++ ws ++ [0x20] ++ hs ++ [0x0A] ++ cws.flatMap codewordBytes ∧
    runOf digit ws ∧ runOf digit hs ∧ numeral ws = w ∧ numeral hs = h ∧
    (0 < w → ws.head? ≠ some 0x30) ∧ (0 < h → hs.head? ≠ some 0x30)) ∧
  (∀ cw : Word, ∃ b0 b1 b2 b3 : Byte, codewordBytes cw = [b0, b1, b2, b3] ∧
    b0.toNat * 2 ^ 24 + b1.toNat * 2 ^ 16 + b2.toNat * 2 ^ 8 + b3.toNat = cw.toNat % 2 ^ 32) ∧
  (∀ bs : List Byte, bs.take 33 ≠ magicBytes → ∃ e, parseStream bs = .error e) ∧
  (∀ (w h : Nat) (body : List Byte), 0 < w → w % 2 = 0 → 0 < h → h % 2 = 0 → 4 * (w / 2 * (h / 2)) ≤ body.length →
    parseStream (frameStream w h [] ++ body) =
      .ok { width := w, height := h, codewords := bodyWords (w / 2 * (h / 2)) body })

/-- A whole compress and decompress run (sections 2 and 3 of spec/47_host_framing.md): for every raster of even, nonzero
dimensions the runs succeed. The stream is the written stream of (w/2)(h/2) codewords, of which number i·(w/2) + j is
`enc_block` of block (i, j); the decoded raster has the same dimensions, and its block (i, j) is `dec_block` of that
codeword. That the host can allocate its buffers is assumed (log 16, log 26). -/
def Obligations.DecompressOfCompress : Prop :=
  ∀ (img : Raster) (canAllocate : Nat → Bool), img.wellFormed = true → (∀ n, canAllocate n = true) →
    ∃ (cws : List Word) (out : Raster),
      compressRun canAllocate img = .ok (frameStream img.width img.height cws) ∧
      cws.length = img.width / 2 * (img.height / 2) ∧
      decompressRun canAllocate (frameStream img.width img.height cws) = .ok out ∧
      out.width = img.width ∧ out.height = img.height ∧ out.pixels.length = out.width * out.height ∧
      ∀ i j : Nat, i < img.height / 2 → j < img.width / 2 →
        ∃ cw : Word, cws[i * (img.width / 2) + j]? = some cw ∧
          encBlock (pixelOf img (2 * j) (2 * i)) (pixelOf img (2 * j + 1) (2 * i)) (pixelOf img (2 * j) (2 * i + 1))
            (pixelOf img (2 * j + 1) (2 * i + 1)) = .ok cw ∧
          decBlock cw = (pixelOf out (2 * j) (2 * i), pixelOf out (2 * j + 1) (2 * i), pixelOf out (2 * j) (2 * i + 1),
            pixelOf out (2 * j + 1) (2 * i + 1))

/-! ### Launch premises, completion and the end of a run -/

/-- R284: IDLE says that BUSY = 0, NOFAULT that FAULT = 0, OPERANDS(cmd, v) that the operand slots cmd reads hold v; the state
just after reset meets IDLE and NOFAULT and has every operand slot 0. -/
def Obligations.LaunchPremises : Prop :=
  (∀ s : State, (idle s = true ↔ s.status.busy = false) ∧ (noFault s = true ↔ s.status.fault = false)) ∧
  (∀ (i : Instr) (v : List Word) (s : State), operandsHold i v s = true ↔
    v.length = operandCount i ∧ ∀ k : Fin 16, k.val < operandCount i → v[k.val]? = some s.a[k]) ∧
  idle State.reset = true ∧ noFault State.reset = true ∧ ∀ i : Fin 16, State.reset.a[i] = 0

/-- A command reads no operand slot but those R88 gives it (section 2 of spec/30_encoding.md): two states that agree on
LATCH and on these slots both succeed, with the same results, or both record the same fault. -/
def Obligations.CommandsReadOnlyNamedSlots : Prop :=
  ∀ (i : Instr) (s1 s2 : State), s1.latch = s2.latch →
    (∀ k : Fin 16, k.val < operandCount i → s1.a[k] = s2.a[k]) →
    (∃ z, exec i s1 = .next (afterSuccess s1 z) ∧ exec i s2 = .next (afterSuccess s2 z)) ∨
    (∃ c info, exec i s1 = .next (afterFault s1 c info) ∧ exec i s2 = .next (afterFault s2 c info))

/-- Weak fairness to the datapath (R287): from every state with BUSY = 1, after finitely many steps that leave the block as
it is, a step is the datapath step of the latched command, or resets the block, which abandons the command (R280). The bound
is the turns already chosen and the host's turns the free choice still gives (log 2, log 13); the schedule must not hold the
one turn that stops the machine (log 10). -/
def Obligations.DatapathStepHappens : Prop :=
  ∀ s : State, s.status.busy = true → (∀ t ∈ s.schedule, t ≠ .resetDuringAccess) →
    ∃ n ≤ s.schedule.length + (Config.latency s.grants - s.passed), ∃ t u : State,
      after n s = some t ∧ sameBlock s t ∧ step t = .next u ∧ u.status.busy = false ∧
      (blockIsReset u ∨ ∃ v, sameBlock t v ∧ datapathStep v = .next u)

/-- A poll loop ends (R287, R99): from every state with BUSY = 1 whose host is at a POLL, with no turn chosen, the host reads
STATUS with BUSY = 1 finitely often, the datapath step happens, and the host reads the STATUS it left and goes on. How often
is the free choice's (log 2, log 13); one recorded read of STATUS a step is the model's form (log 14). -/
def Obligations.PollLoopEnds : Prop :=
  ∀ (s : State) (rest : List HostOp), s.status.busy = true → s.schedule = [] → s.host.mode = .running →
    s.host.program = .poll :: rest →
    ∃ v u t : State, sameBlock s v ∧ datapathStep v = .next u ∧
      after (Config.latency s.grants - s.passed + 2) s = some t ∧ sameBlock u t ∧
      t.host = { program := rest, mode := .running
                 reads := s.host.reads
                   ++ List.replicate (Config.latency s.grants - s.passed) (readReg .status s) ++ [readReg .status t] } ∧
      (readReg .status s).getLsbD 0 = true ∧ (readReg .status t).getLsbD 0 = false

/-- The end of a run (R258, R291): a run that has faulted is over and has failed, from the datapath step that records the fault
on, whatever the host has left to do; a run with BUSY = 1, or with operations left and no fault, is not over and has no
observation; one with BUSY = 0 and nothing left is over. A refused host has no observation; else the observation of a run
that is over is the values the host read and STATUS, A and Z, and the run has failed exactly if FAULT = 1. A run that a reset
of either source begins has read nothing (R282; the host's program then: log 5, log 28). That a host CHECK stopped has an
observation, that a run refused at its last operation is over, and that what the host reads after a fault belongs to the
observation, are the model's choices (log 15, log 29, log 30). -/
def Obligations.ObservationAtEndOfRun : Prop :=
  (∀ s : State,
    (s.status.busy = true ∨ s.host.program ≠ [] ∧ s.status.fault = false →
      runOver s = false ∧ observation s = none ∧ runFailed s = false) ∧
    (s.status.busy = false → s.status.fault = true → runOver s = true ∧ runFailed s = true) ∧
    (s.status.busy = false → s.host.program = [] → runOver s = true ∧ runFailed s = s.status.fault) ∧
    ((∃ why, s.host.mode = .refused why) → observation s = none) ∧
    ((∀ why, s.host.mode ≠ .refused why) → s.status.busy = false → s.host.program = [] ∨ s.status.fault = true →
      observation s = some { reads := s.host.reads, status := readReg .status s, a := s.a, z := s.z })) ∧
  (∀ s t : State, datapathStep s = .next t → t.status.fault = true → runOver t = true ∧ runFailed t = true) ∧
  (∀ s t : State, takeTurn (.reset []) s = .next t →
    observation t = some { reads := [], status := 0, a := slots1 0, z := slots1 0 }) ∧
  (∀ (s : State) (v : Word) (rest : List HostOp), s.host.mode = .running →
    s.host.program = .write (Config.base + 0x10) 8 v :: rest → v.getLsbD 0 = true →
    ∃ t, takeTurn .host s = .next t ∧ blockIsReset t ∧ t.host = { program := rest, reads := [], mode := .running })

/-- R213, R214: after the height one 0x0A is consumed if it stands there and nothing else is skipped, whatever byte follows;
the body is read as (w/2)(h/2) codewords, codeword k from bytes 4k to 4k + 3, most significant first, and the bytes after the
last codeword are ignored. The dimensions are those of the line of R212, with leading zeros and any run of separators. -/
def Obligations.BodyBeginsAfterOptionalNewline : Prop :=
  ∀ (w h : Nat) (line body : List Byte), dimensionBytes w h line → 0 < w → w % 2 = 0 → 0 < h → h % 2 = 0 →
    4 * (w / 2 * (h / 2)) ≤ body.length →
    parseStream (magicBytes ++ line ++ [0x0A] ++ body) =
      .ok { width := w, height := h, codewords := bodyWords (w / 2 * (h / 2)) body } ∧
    (startsWithout digit body → body.head? ≠ some 0x0A →
      parseStream (magicBytes ++ line ++ body) =
        .ok { width := w, height := h, codewords := bodyWords (w / 2 * (h / 2)) body })

/-- The block functions of the runs are what the commands compute (R220 and R221 drive the block with them): with the pixels
of a block in the operand slots ENC_BLOCK writes the run's codeword, and with a codeword there DEC_BLOCK writes the run's
four pixels. -/
def Obligations.RunsComputeWhatCommandsWrite : Prop :=
  (∀ (s : State) (p1 p2 p3 p4 : Pixel), ∃ cw : Word, encBlock p1 p2 p3 p4 = .ok cw ∧
    exec .encBlock (withA s (slots4 (slotOf p1) (slotOf p2) (slotOf p3) (slotOf p4))) =
      .next (afterSuccess (withA s (slots4 (slotOf p1) (slotOf p2) (slotOf p3) (slotOf p4))) (slots1 cw))) ∧
  (∀ (s : State) (cw : Word), ∃ p1 p2 p3 p4 : Pixel, decBlock cw = (p1, p2, p3, p4) ∧
    exec .decBlock (withA s (slots1 cw)) =
      .next (afterSuccess (withA s (slots1 cw)) (slots4 (slotOf p1) (slotOf p2) (slotOf p3) (slotOf p4))))
end

