-- ==== Sys2Proof/Laws/Bits.lean ====
section
/-!
SUPPORT. Words as integers, bit fields, and the bits a BitPacker operation writes.
-/

namespace Sys2Proof.Laws

open Sys2Proof.Machine

/-! ### Integers and 64-bit patterns -/

theorem toInt_range (x : Word) : -(2 ^ 63) ≤ x.toInt ∧ x.toInt ≤ 2 ^ 63 - 1 := by
  have := BitVec.toInt_lt (x := x)
  have := BitVec.le_toInt (x := x)
  omega

theorem toInt_bits64 (n : Int) (h : -(2 ^ 63) ≤ n) (g : n ≤ 2 ^ 63 - 1) : (bits64 n).toInt = n := by
  rw [bits64, BitVec.toInt_ofInt, Int.bmod_eq_of_le] <;> omega

theorem toNat_bits64 (n : Int) (h : 0 ≤ n) (g : n < 2 ^ 64) : ((bits64 n).toNat : Int) = n := by
  rw [bits64, BitVec.toNat_ofInt]
  omega

@[simp] theorem bits64_toInt (x : Word) : bits64 x.toInt = x := by simp [bits64]

@[simp] theorem bits64_toNat (x : Word) : bits64 x.toNat = x := by simp [bits64]

theorem toInt_eq_zero (x : Word) : x.toInt = 0 ↔ x = 0 := by
  constructor
  · intro h
    exact BitVec.eq_of_toInt_eq (by simpa using h)
  · rintro rfl
    rfl

/-! ### Fields -/

theorem field_lt (x : Word) (n lo : Nat) : field x n lo < 2 ^ n := Nat.mod_lt _ (by positivity)

theorem field_testBit (x : Word) (n lo i : Nat) :
    (field x n lo).testBit i = (decide (i < n) && x.getLsbD (lo + i)) := by
  rw [field, Nat.testBit_mod_two_pow, Nat.testBit_div_two_pow, BitVec.getLsbD, Nat.add_comm]

/-- `sint` of an n-bit field lies in the signed range of n bits. -/
theorem sint_range (n f : Nat) (hn : 0 < n) (h : f < 2 ^ n) :
    -(2 ^ (n - 1)) ≤ sint n f ∧ sint n f ≤ 2 ^ (n - 1) - 1 := by
  have e : 2 ^ n = 2 * 2 ^ (n - 1) := by
    rw [← Nat.pow_succ']
    congr 1
    omega
  have c : ((2 ^ (n - 1) : Nat) : Int) = (2 : Int) ^ (n - 1) := by push_cast; rfl
  have d : (2 : Int) ^ n = 2 * 2 ^ (n - 1) := by exact_mod_cast e
  unfold sint
  rw [if_neg (by omega), d]
  split <;> omega

/-- The word of a signed field is the sign extension of its bits. -/
theorem bits64_sint (n f : Nat) (h : f < 2 ^ n) (h0 : 0 < n) :
    bits64 (sint n f) = (BitVec.ofNat n f).signExtend 64 := by
  rw [bits64, sint, if_neg (by omega), BitVec.signExtend, BitVec.toInt]
  congr 1
  rw [BitVec.toNat_ofNat, Nat.mod_eq_of_lt h]
  have e : 2 ^ n = 2 * 2 ^ (n - 1) := by
    rw [← Nat.pow_succ']
    congr 1
    omega
  have e2 : ((2 ^ n : Nat) : Int) = (2 : Int) ^ n := by push_cast; rfl
  rw [e2]
  split <;> split <;> omega

/-! ### What fits -/

theorem fitsU_iff (n w : Nat) : fitsU n w = true ↔ n < 2 ^ w := by
  unfold fitsU
  have : 0 < 2 ^ w := Nat.pos_of_ne_zero (by positivity)
  simp only [Bool.and_eq_true, decide_eq_true_eq]
  have e : ((2 ^ w : Nat) : Int) = 2 ^ w := by push_cast; rfl
  rw [← e]
  omega

theorem contractOk_true {w l : Nat} (h : w ≤ 64) (g : w + l ≤ 64) : contractOk w l = true := by
  simp [contractOk, Config.packWidth, h, g]

theorem contractOk_false {w l : Nat} (h : 64 < w ∨ 64 < w + l) : contractOk w l = false := by
  unfold contractOk Config.packWidth
  have : ¬ (w ≤ 64 ∧ w + l ≤ 64) := by omega
  by_cases a : w ≤ 64 <;> by_cases b : w + l ≤ 64 <;> simp_all

/-! ### Insertion -/

theorem fieldMask_bit (w l i : Nat) (hi : i < 64) :
    (fieldMask w l).getLsbD i = (decide (l ≤ i) && decide (i < l + w)) := by
  rw [fieldMask, BitVec.getLsbD_shiftLeft, BitVec.getLsbD_ofNat, Nat.testBit_two_pow_sub_one]
  by_cases h : l ≤ i
  · simp [h, hi, show ¬ i < l by omega, show i - l < 64 by omega, show (i - l < w) = (i < l + w) by simp; omega]
  · simp [h, show i < l by omega]

theorem low_bits (v : Int) (w i : Nat) (hw : w ≤ 64) :
    (BitVec.ofInt 64 (v % 2 ^ w)).getLsbD i = (decide (i < w) && (BitVec.ofInt 64 v).getLsbD i) := by
  have h0 : (0 : Int) ≤ v % 2 ^ w := Int.emod_nonneg _ (by positivity)
  have h1 : v % 2 ^ w < (2 : Int) ^ w := Int.emod_lt_of_pos _ (by positivity)
  have h2 : (2 : Int) ^ w ≤ 2 ^ 64 := by exact_mod_cast Nat.pow_le_pow_right (by decide) hw
  have e : (BitVec.ofInt 64 (v % 2 ^ w)).toNat = (BitVec.ofInt 64 v).toNat % 2 ^ w := by
    rw [BitVec.toNat_ofInt, BitVec.toNat_ofInt]
    zify
    rw [Int.toNat_of_nonneg (by omega), Int.toNat_of_nonneg (by omega)]
    have e3 : ((2 ^ 64 : Nat) : Int) = (2 : Int) ^ 64 := by norm_num
    try rw [e3]
    rw [Int.emod_eq_of_lt h0 (by omega)]
    exact (Int.emod_emod_of_dvd _ (pow_dvd_pow (2 : Int) hw)).symm
  rw [BitVec.getLsbD, e, Nat.testBit_mod_two_pow, BitVec.getLsbD]

/-- Bit by bit, what R181 writes: the value inside the field, the old word outside it. -/
theorem insertField_bit (word : Word) (w l : Nat) (v : Int) (i : Nat) (hi : i < 64) (hw : w ≤ 64) :
    (insertField word w l v).getLsbD i =
      if l ≤ i ∧ i < l + w then (BitVec.ofInt 64 v).getLsbD (i - l) else word.getLsbD i := by
  rw [insertField, BitVec.getLsbD_or, BitVec.getLsbD_and, BitVec.getLsbD_not, fieldMask_bit _ _ _ hi,
    BitVec.getLsbD_shiftLeft, low_bits v _ _ hw]
  by_cases h : l ≤ i
  · by_cases g : i < l + w
    · simp [h, g, hi, show ¬ i < l by omega, show i - l < w by omega]
    · simp [h, g, hi, show ¬ i - l < w by omega]
  · simp [h, hi, show i < l by omega]

/-- Inserting above a run of zeros is adding. -/
theorem insertField_toNat (word : Word) (w l : Nat) (v : Int) (hw : w + l ≤ 64)
    (h : word.toNat % 2 ^ (l + w) = 0) :
    (insertField word w l v).toNat = word.toNat + (v % 2 ^ w).toNat * 2 ^ l := by
  have h0 : (0 : Int) ≤ v % 2 ^ w := Int.emod_nonneg _ (by positivity)
  have h1 : v % 2 ^ w < (2 : Int) ^ w := Int.emod_lt_of_pos _ (by positivity)
  have hf : (v % 2 ^ w).toNat < 2 ^ w := by zify; rw [Int.toNat_of_nonneg h0]; exact h1
  have hl : 2 ^ w ≤ 2 ^ 64 := Nat.pow_le_pow_right (by decide) (by omega)
  have hmul : (v % 2 ^ w).toNat * 2 ^ l < 2 ^ (l + w) := by
    rw [pow_add, mul_comm]
    exact Nat.mul_lt_mul_of_pos_left hf (by positivity)
  have hle : 2 ^ (l + w) ≤ 2 ^ 64 := Nat.pow_le_pow_right (by decide) (by omega)
  have bit0 : ∀ i, i < l + w → word.getLsbD i = false := by
    intro i hi
    have e := Nat.testBit_mod_two_pow word.toNat (l + w) i
    rw [h, Nat.zero_testBit] at e
    simp [hi] at e
    rw [BitVec.getLsbD]
    exact e
  have e1 : word &&& ~~~(fieldMask w l) = word := by
    apply BitVec.eq_of_getLsbD_eq
    intro i hi
    rw [BitVec.getLsbD_and, BitVec.getLsbD_not, fieldMask_bit _ _ _ hi]
    by_cases g : i < l + w
    · simp [bit0 i g]
    · simp [g, hi]
  have e2 : (BitVec.ofInt 64 (v % 2 ^ w)).toNat = (v % 2 ^ w).toNat := by
    rw [BitVec.toNat_ofInt]
    omega
  rw [insertField, e1, BitVec.toNat_or, BitVec.toNat_shiftLeft, e2, Nat.shiftLeft_eq, Nat.mod_eq_of_lt (by omega)]
  have e3 : word.toNat = (word.toNat / 2 ^ (l + w)) <<< (l + w) := by
    rw [Nat.shiftLeft_eq, Nat.div_mul_cancel (Nat.dvd_of_mod_eq_zero h)]
  rw [e3, Nat.shiftLeft_add_eq_or_of_lt hmul]

/-! ### What newU and newS answer -/

theorem newU_cases (k : Nat) (word : Word) (w l : Nat) (v : Int) :
    newU k word w l v = .ok (insertField word w l v) ∧ fitsU v w = true ∨
      newU k word w l v = raiseFault .overflow k ∧ fitsU v w = false := by
  unfold newU
  cases h : fitsU v w <;> simp

theorem newS_cases (k : Nat) (word : Word) (w l : Nat) (v : Int) :
    newS k word w l v = .ok (insertField word w l v) ∧ fitsS v w = true ∨
      newS k word w l v = raiseFault .overflow k ∧ fitsS v w = false := by
  unfold newS
  cases h : fitsS v w <;> simp

end Sys2Proof.Laws
end

