-- ==== Sys2Proof/Laws/Framing.lean ====
section
/-!
SUPPORT. Small facts of the framing: digits, runs, the body.
-/

namespace Sys2Proof.Laws

open Sys2Proof.Machine

@[simp] theorem magicLine_length : magicLine.length = 33 := by decide

theorem digitByte_toNat (d : Nat) (h : d < 10) : (digitByte d).toNat = 0x30 + d := by
  rw [digitByte, BitVec.toNat_ofNat]
  omega

theorem isDigit_iff (b : Byte) : isDigit b = true ↔ 0x30 ≤ b.toNat ∧ b.toNat ≤ 0x39 := by simp [isDigit]

theorem decimal_ne_nil (n : Nat) : decimal n ≠ [] := by
  unfold decimal
  split
  · simp
  · rename_i h
    simp [Nat.digits_ne_nil_iff_ne_zero, h]

theorem decimal_isDigit (n : Nat) : ∀ b ∈ decimal n, isDigit b = true := by
  intro b hb
  rw [isDigit_iff]
  unfold decimal at hb
  split at hb
  · simp at hb
    subst hb
    decide
  · simp only [List.mem_map, List.mem_reverse] at hb
    obtain ⟨d, hd, rfl⟩ := hb
    have := Nat.digits_lt_base (b := 10) (by decide) hd
    rw [digitByte_toNat d this]
    omega

/-- The value of digits written from the least significant one, after those already read. -/
theorem digits_fold (ds : List Nat) (h : ∀ d ∈ ds, d < 10) (acc : Nat) :
    (ds.reverse.map digitByte).foldl (fun n d => n * 10 + (d.toNat - 0x30)) acc =
      acc * 10 ^ ds.length + Nat.ofDigits 10 ds := by
  induction ds generalizing acc with
  | nil => simp [Nat.ofDigits]
  | cons d ds ih =>
    rw [List.reverse_cons, List.map_append, List.foldl_append, ih (fun x hx => h x (List.mem_cons_of_mem _ hx))]
    simp only [List.map_cons, List.map_nil, List.foldl_cons, List.foldl_nil, digitByte_toNat d (h d List.mem_cons_self),
      Nat.ofDigits_cons, List.length_cons, pow_succ]
    have : 0x30 + d - 0x30 = d := by omega
    rw [this]
    ring

/-- Reading back a written number (R211, R212). -/
theorem digitsValue_decimal (n : Nat) : digitsValue (decimal n) = n := by
  unfold digitsValue decimal
  split
  · rename_i h
    subst h
    decide
  · rw [digits_fold _ (fun d hd => Nat.digits_lt_base (by decide) hd) 0]
    simp [Nat.ofDigits_digits]

/-- A run of a kind ends where the kind does. -/
theorem readRun_append (kind : Byte → Bool) (e : FormatError) (run rest : List Byte) (h : run ≠ [])
    (hk : ∀ b ∈ run, kind b = true) (hr : ∀ b, rest.head? = some b → kind b = false) :
    readRun kind e (run ++ rest) = .ok (run, rest) := by
  have t : rest.takeWhile kind = [] := by
    cases rest with
    | nil => rfl
    | cons b l => simp [hr b rfl]
  have d : rest.dropWhile kind = rest := by
    cases rest with
    | nil => rfl
    | cons b l => simp [hr b rfl]
  unfold readRun
  rw [List.takeWhile_append_of_pos hk, List.dropWhile_append_of_pos hk, t, d, List.append_nil, if_neg]
  simp [h]

theorem codewordBytes_length (cw : Word) : (codewordBytes cw).length = 4 := rfl

/-- A codeword below 2^32 is read back from its four bytes (R214). -/
theorem codewordOf_bytes (cw : Word) (h : cw.toNat < 2 ^ 32) :
    codewordOf (BitVec.ofNat 8 (field cw 8 24)) (BitVec.ofNat 8 (field cw 8 16)) (BitVec.ofNat 8 (field cw 8 8))
      (BitVec.ofNat 8 (field cw 8 0)) = cw := by
  apply BitVec.eq_of_toNat_eq
  simp only [codewordOf, field, BitVec.toNat_ofNat]
  omega

end Sys2Proof.Laws
end

