-- ==== Sys2Proof/Laws/State.lean ====
section
/-!
SUPPORT. One lemma per field of State per update, true by rfl, so that no proof unfolds a record update.
-/

namespace Sys2Proof.Laws

open Sys2Proof.Machine

/-! ### The fields after completing a command -/

@[simp] theorem complete_latch (ws : List Word) (s : State) : (complete ws s).latch = s.latch := rfl
@[simp] theorem complete_status (ws : List Word) (s : State) :
    (complete ws s).status =
      { s.status with busy := false } := rfl
@[simp] theorem complete_a (ws : List Word) (s : State) : (complete ws s).a = s.a := rfl
@[simp] theorem complete_z (ws : List Word) (s : State) : (complete ws s).z = slotsOf ws := rfl
@[simp] theorem complete_host (ws : List Word) (s : State) : (complete ws s).host = s.host := rfl
@[simp] theorem complete_schedule (ws : List Word) (s : State) : (complete ws s).schedule = s.schedule := rfl
@[simp] theorem complete_draws (ws : List Word) (s : State) : (complete ws s).draws = s.draws := rfl
@[simp] theorem complete_grants (ws : List Word) (s : State) : (complete ws s).grants = s.grants := rfl
@[simp] theorem complete_passed (ws : List Word) (s : State) : (complete ws s).passed = s.passed := rfl

/-! ### The fields after taking a fault -/

@[simp] theorem recordFault_latch (r : Raise) (s : State) : (recordFault r s).latch = s.latch := rfl
@[simp] theorem recordFault_status (r : Raise) (s : State) :
    (recordFault r s).status =
      { busy := false, fault := true, cause := r.cause, faultOpc := s.latch.extractLsb' 0 8, faultInfo := r.info } := rfl
@[simp] theorem recordFault_a (r : Raise) (s : State) : (recordFault r s).a = s.a := rfl
@[simp] theorem recordFault_z (r : Raise) (s : State) : (recordFault r s).z = s.z := rfl
@[simp] theorem recordFault_host (r : Raise) (s : State) : (recordFault r s).host = s.host := rfl
@[simp] theorem recordFault_schedule (r : Raise) (s : State) : (recordFault r s).schedule = s.schedule := rfl
@[simp] theorem recordFault_draws (r : Raise) (s : State) : (recordFault r s).draws = s.draws := rfl
@[simp] theorem recordFault_grants (r : Raise) (s : State) : (recordFault r s).grants = s.grants := rfl
@[simp] theorem recordFault_passed (r : Raise) (s : State) : (recordFault r s).passed = s.passed := rfl

/-! ### The fields after the reset of the block -/

@[simp] theorem resetBlock_latch (s : State) : (resetBlock s).latch = 0 := rfl
@[simp] theorem resetBlock_status (s : State) : (resetBlock s).status = Status.reset := rfl
@[simp] theorem resetBlock_a (s : State) : (resetBlock s).a = slotsZero := rfl
@[simp] theorem resetBlock_z (s : State) : (resetBlock s).z = slotsZero := rfl
@[simp] theorem resetBlock_host (s : State) : (resetBlock s).host = s.host := rfl
@[simp] theorem resetBlock_schedule (s : State) : (resetBlock s).schedule = s.schedule := rfl
@[simp] theorem resetBlock_draws (s : State) : (resetBlock s).draws = s.draws := rfl
@[simp] theorem resetBlock_grants (s : State) : (resetBlock s).grants = s.grants := rfl
@[simp] theorem resetBlock_passed (s : State) : (resetBlock s).passed = s.passed := rfl

/-! ### The fields after a reset that begins a run -/

@[simp] theorem resetRun_latch (next : List HostOp) (s : State) : (resetRun next s).latch = 0 := rfl
@[simp] theorem resetRun_status (next : List HostOp) (s : State) : (resetRun next s).status = Status.reset := rfl
@[simp] theorem resetRun_a (next : List HostOp) (s : State) : (resetRun next s).a = slotsZero := rfl
@[simp] theorem resetRun_z (next : List HostOp) (s : State) : (resetRun next s).z = slotsZero := rfl
@[simp] theorem resetRun_host (next : List HostOp) (s : State) :
    (resetRun next s).host = { program := next, reads := [], mode := .running } := rfl
@[simp] theorem resetRun_schedule (next : List HostOp) (s : State) : (resetRun next s).schedule = s.schedule := rfl
@[simp] theorem resetRun_draws (next : List HostOp) (s : State) : (resetRun next s).draws = s.draws := rfl
@[simp] theorem resetRun_grants (next : List HostOp) (s : State) : (resetRun next s).grants = s.grants := rfl
@[simp] theorem resetRun_passed (next : List HostOp) (s : State) : (resetRun next s).passed = s.passed := rfl

/-! ### The fields after the external reset -/

@[simp] theorem externalReset_latch (next : List HostOp) (s : State) : (externalReset next s).latch = 0 := rfl
@[simp] theorem externalReset_status (next : List HostOp) (s : State) :
    (externalReset next s).status = Status.reset := rfl
@[simp] theorem externalReset_a (next : List HostOp) (s : State) : (externalReset next s).a = slotsZero := rfl
@[simp] theorem externalReset_z (next : List HostOp) (s : State) : (externalReset next s).z = slotsZero := rfl
@[simp] theorem externalReset_host (next : List HostOp) (s : State) :
    (externalReset next s).host = { program := next, reads := [], mode := .running } := rfl
@[simp] theorem externalReset_schedule (next : List HostOp) (s : State) :
    (externalReset next s).schedule = s.schedule := rfl
@[simp] theorem externalReset_draws (next : List HostOp) (s : State) : (externalReset next s).draws = s.draws := rfl
@[simp] theorem externalReset_grants (next : List HostOp) (s : State) : (externalReset next s).grants = s.grants := rfl
@[simp] theorem externalReset_passed (next : List HostOp) (s : State) : (externalReset next s).passed = s.passed := rfl

/-! ### The fields after taking an operation off the host's program -/

@[simp] theorem setProgram_latch (ops : List HostOp) (s : State) : (setProgram ops s).latch = s.latch := rfl
@[simp] theorem setProgram_status (ops : List HostOp) (s : State) : (setProgram ops s).status = s.status := rfl
@[simp] theorem setProgram_a (ops : List HostOp) (s : State) : (setProgram ops s).a = s.a := rfl
@[simp] theorem setProgram_z (ops : List HostOp) (s : State) : (setProgram ops s).z = s.z := rfl
@[simp] theorem setProgram_host (ops : List HostOp) (s : State) :
    (setProgram ops s).host =
      { s.host with program := ops } := rfl
@[simp] theorem setProgram_schedule (ops : List HostOp) (s : State) : (setProgram ops s).schedule = s.schedule := rfl
@[simp] theorem setProgram_draws (ops : List HostOp) (s : State) : (setProgram ops s).draws = s.draws := rfl
@[simp] theorem setProgram_grants (ops : List HostOp) (s : State) : (setProgram ops s).grants = s.grants := rfl
@[simp] theorem setProgram_passed (ops : List HostOp) (s : State) : (setProgram ops s).passed = s.passed := rfl

/-! ### The fields after refusing the host -/

@[simp] theorem refuseHost_latch (why : RefusedAccess) (s : State) : (refuseHost why s).latch = s.latch := rfl
@[simp] theorem refuseHost_status (why : RefusedAccess) (s : State) : (refuseHost why s).status = s.status := rfl
@[simp] theorem refuseHost_a (why : RefusedAccess) (s : State) : (refuseHost why s).a = s.a := rfl
@[simp] theorem refuseHost_z (why : RefusedAccess) (s : State) : (refuseHost why s).z = s.z := rfl
@[simp] theorem refuseHost_host (why : RefusedAccess) (s : State) :
    (refuseHost why s).host =
      { s.host with mode := .refused why } := rfl
@[simp] theorem refuseHost_schedule (why : RefusedAccess) (s : State) : (refuseHost why s).schedule = s.schedule := rfl
@[simp] theorem refuseHost_draws (why : RefusedAccess) (s : State) : (refuseHost why s).draws = s.draws := rfl
@[simp] theorem refuseHost_grants (why : RefusedAccess) (s : State) : (refuseHost why s).grants = s.grants := rfl
@[simp] theorem refuseHost_passed (why : RefusedAccess) (s : State) : (refuseHost why s).passed = s.passed := rfl

/-! ### The fields after stopping the host's program -/

@[simp] theorem failHost_latch (s : State) : (failHost s).latch = s.latch := rfl
@[simp] theorem failHost_status (s : State) : (failHost s).status = s.status := rfl
@[simp] theorem failHost_a (s : State) : (failHost s).a = s.a := rfl
@[simp] theorem failHost_z (s : State) : (failHost s).z = s.z := rfl
@[simp] theorem failHost_host (s : State) : (failHost s).host = { s.host with program := [], mode := .failed } := rfl
@[simp] theorem failHost_schedule (s : State) : (failHost s).schedule = s.schedule := rfl
@[simp] theorem failHost_draws (s : State) : (failHost s).draws = s.draws := rfl
@[simp] theorem failHost_grants (s : State) : (failHost s).grants = s.grants := rfl
@[simp] theorem failHost_passed (s : State) : (failHost s).passed = s.passed := rfl

/-! ### The fields after placing a command -/

@[simp] theorem withFetchWord_latch (nbits w : Nat) (s : State) :
    (s.withFetchWord nbits w).latch =
      BitVec.ofNat 64 (w % 2 ^ nbits) := rfl
@[simp] theorem withFetchWord_status (nbits w : Nat) (s : State) :
    (s.withFetchWord nbits w).status =
      { s.status with busy := true } := rfl
@[simp] theorem withFetchWord_a (nbits w : Nat) (s : State) : (s.withFetchWord nbits w).a = s.a := rfl
@[simp] theorem withFetchWord_z (nbits w : Nat) (s : State) : (s.withFetchWord nbits w).z = s.z := rfl
@[simp] theorem withFetchWord_host (nbits w : Nat) (s : State) : (s.withFetchWord nbits w).host = s.host := rfl
@[simp] theorem withFetchWord_schedule (nbits w : Nat) (s : State) :
    (s.withFetchWord nbits w).schedule =
      .datapath :: s.schedule := rfl
@[simp] theorem withFetchWord_draws (nbits w : Nat) (s : State) : (s.withFetchWord nbits w).draws = s.draws := rfl
@[simp] theorem withFetchWord_grants (nbits w : Nat) (s : State) : (s.withFetchWord nbits w).grants = s.grants := rfl
@[simp] theorem withFetchWord_passed (nbits w : Nat) (s : State) : (s.withFetchWord nbits w).passed = s.passed := rfl

/-! ### A read by the host: the block keeps its registers, only the host's reads and the counter move -/

theorem countDraw_eq (r : Reg) (s : State) : ∃ n, countDraw r s = { s with draws := n } := by
  cases r <;> simp only [countDraw] <;> try split
  all_goals exact ⟨_, rfl⟩

@[simp] theorem countDraw_latch (r : Reg) (s : State) : (countDraw r s).latch = s.latch := by
  obtain ⟨n, h⟩ := countDraw_eq r s; rw [h]
@[simp] theorem countDraw_status (r : Reg) (s : State) : (countDraw r s).status = s.status := by
  obtain ⟨n, h⟩ := countDraw_eq r s; rw [h]
@[simp] theorem countDraw_a (r : Reg) (s : State) : (countDraw r s).a = s.a := by
  obtain ⟨n, h⟩ := countDraw_eq r s; rw [h]
@[simp] theorem countDraw_z (r : Reg) (s : State) : (countDraw r s).z = s.z := by
  obtain ⟨n, h⟩ := countDraw_eq r s; rw [h]
@[simp] theorem countDraw_host (r : Reg) (s : State) : (countDraw r s).host = s.host := by
  obtain ⟨n, h⟩ := countDraw_eq r s; rw [h]
@[simp] theorem countDraw_schedule (r : Reg) (s : State) : (countDraw r s).schedule = s.schedule := by
  obtain ⟨n, h⟩ := countDraw_eq r s; rw [h]
@[simp] theorem countDraw_grants (r : Reg) (s : State) : (countDraw r s).grants = s.grants := by
  obtain ⟨n, h⟩ := countDraw_eq r s; rw [h]
@[simp] theorem countDraw_passed (r : Reg) (s : State) : (countDraw r s).passed = s.passed := by
  obtain ⟨n, h⟩ := countDraw_eq r s; rw [h]

@[simp] theorem hostRead_latch (r : Reg) (s : State) : (hostRead r s).latch = s.latch := countDraw_latch r s
@[simp] theorem hostRead_status (r : Reg) (s : State) : (hostRead r s).status = s.status := countDraw_status r s
@[simp] theorem hostRead_a (r : Reg) (s : State) : (hostRead r s).a = s.a := countDraw_a r s
@[simp] theorem hostRead_z (r : Reg) (s : State) : (hostRead r s).z = s.z := countDraw_z r s
@[simp] theorem hostRead_schedule (r : Reg) (s : State) : (hostRead r s).schedule = s.schedule := countDraw_schedule r s
@[simp] theorem hostRead_grants (r : Reg) (s : State) : (hostRead r s).grants = s.grants := countDraw_grants r s
@[simp] theorem hostRead_passed (r : Reg) (s : State) : (hostRead r s).passed = s.passed := countDraw_passed r s
@[simp] theorem hostRead_host (r : Reg) (s : State) :
    (hostRead r s).host = { s.host with reads := s.host.reads ++ [readReg r s] } := by
  simp only [hostRead, countDraw_host]

/-- Taking an operation off the program changes no register value. -/
@[simp] theorem readReg_setProgram (r : Reg) (ops : List HostOp) (s : State) :
    readReg r (setProgram ops s) = readReg r s := by
  cases r <;> rfl

end Sys2Proof.Laws
end

