-- ==== Sys2Proof/Laws/Ops.lean ====
section
/-!
SUPPORT. What each shared operation can do, said once: the end of a datapath step, the register window, a register write,
a host step, a turn, a step.
-/

namespace Sys2Proof.Laws

open Sys2Proof.Machine

/-! ### The end of a datapath step -/

/-- Every command ends in the shared settling of a result that depends on the operand slots of R88 alone. -/
theorem exec_reads (i : Instr) :
    ∃ f : Slots → Result, (∀ s, exec i s = settle (f s.a) s) ∧
      ∀ a b : Slots, operandValues i a = operandValues i b → f a = f b := by
  cases i
  case nop => exact ⟨fun _ => .ok [], fun _ => rfl, fun _ _ _ => rfl⟩
  case cscFwd =>
    exact ⟨cscFwdResult, fun _ => rfl,
      fun a b h => by simp_all [operandValues, operandSlots, cscFwdResult]⟩
  case cscInv =>
    exact ⟨cscInvResult, fun _ => rfl,
      fun a b h => by simp_all [operandValues, operandSlots, cscInvResult]⟩
  case blkFwd =>
    exact ⟨blkFwdResult, fun _ => rfl,
      fun a b h => by simp_all [operandValues, operandSlots, blkFwdResult]⟩
  case blkInv =>
    exact ⟨blkInvResult, fun _ => rfl,
      fun a b h => by simp_all [operandValues, operandSlots, blkInvResult]⟩
  case dctFwd =>
    exact ⟨dctFwdResult, fun _ => rfl,
      fun a b h => by simp_all [operandValues, operandSlots, dctFwdResult]⟩
  case dctInv =>
    exact ⟨dctInvResult, fun _ => rfl,
      fun a b h => by simp_all [operandValues, operandSlots, dctInvResult]⟩
  case qa =>
    exact ⟨fun a => .ok [bits64 (quantA (qvIn a[0]))], fun _ => rfl,
      fun a b h => by simp_all [operandValues, operandSlots]⟩
  case qbcd =>
    exact ⟨fun a => .ok [bits64 (quantBcd (qvIn a[0]))], fun _ => rfl,
      fun a b h => by simp_all [operandValues, operandSlots]⟩
  case qc =>
    exact ⟨fun a => .ok [bits64 (quantC (qvIn a[0]))], fun _ => rfl,
      fun a b h => by simp_all [operandValues, operandSlots]⟩
  case dqa =>
    exact ⟨fun a => qvOutAll 0 [dequantA (field a[0] 9 0)], fun _ => rfl,
      fun a b h => by simp_all [operandValues, operandSlots]⟩
  case dqbcd =>
    exact ⟨fun a => qvOutAll 0 [dequantBcd (sint 5 (field a[0] 5 0))], fun _ => rfl,
      fun a b h => by simp_all [operandValues, operandSlots]⟩
  case dqc =>
    exact ⟨fun a => qvOutAll 0 [dequantC (field a[0] 4 0)], fun _ => rfl,
      fun a b h => by simp_all [operandValues, operandSlots]⟩
  case fitsu w =>
    exact ⟨fun a => withContract (contractOk w 0) (.ok (boolOut (fitsU a[0].toNat w))), fun _ => rfl,
      fun a b h => by simp_all [operandValues, operandSlots]⟩
  case fitss w =>
    exact ⟨fun a => withContract (contractOk w 0) (.ok (boolOut (fitsS a[0].toInt w))), fun _ => rfl,
      fun a b h => by simp_all [operandValues, operandSlots]⟩
  case getu w l =>
    exact ⟨fun a => withContract (contractOk w l) (.ok (bits64 (getU a[0] w l))), fun _ => rfl,
      fun a b h => by simp_all [operandValues, operandSlots]⟩
  case gets w l =>
    exact ⟨fun a => withContract (contractOk w l) (.ok (bits64 (getS a[0] w l))), fun _ => rfl,
      fun a b h => by simp_all [operandValues, operandSlots]⟩
  case newu w l =>
    exact ⟨fun a => withContract (contractOk w l) (newU 1 a[0] w l a[1].toNat), fun _ => rfl,
      fun a b h => by simp_all [operandValues, operandSlots]⟩
  case news w l =>
    exact ⟨fun a => withContract (contractOk w l) (newS 1 a[0] w l a[1].toInt), fun _ => rfl,
      fun a b h => by simp_all [operandValues, operandSlots]⟩
  case cwPack =>
    exact ⟨cwPackResult, fun _ => rfl,
      fun a b h => by simp_all [operandValues, operandSlots, cwPackResult]⟩
  case cwUnpack =>
    exact ⟨cwUnpackResult, fun _ => rfl,
      fun a b h => by simp_all [operandValues, operandSlots, cwUnpackResult]⟩
  case encBlock =>
    exact ⟨encBlockResult, fun _ => rfl,
      fun a b h => by simp_all [operandValues, operandSlots, encBlockResult]⟩
  case decBlock =>
    exact ⟨decBlockResult, fun _ => rfl,
      fun a b h => by simp_all [operandValues, operandSlots, decBlockResult]⟩

/-- Every command ends in the shared settling of a result that depends on the operand slots alone. -/
theorem exec_settles (i : Instr) : ∃ f : Slots → Result, ∀ s, exec i s = settle (f s.a) s :=
  (exec_reads i).imp fun _ h => h.1

/-- The opcode a fault records is the low byte of the command word. -/
theorem opc_eq (x : Word) : x.extractLsb' 0 8 = BitVec.ofNat 8 (x.toNat % 256) := by
  apply BitVec.eq_of_toNat_eq
  simp

theorem finish_ok (ws : List Word) (s : State) : finish (.ok ws) s = complete ws s := rfl

theorem finish_raise (c : Cause) (k : Nat) (s : State) :
    finish (raiseFault c k) s = recordFault { cause := c, info := BitVec.ofNat 4 k } s := rfl

@[simp] theorem finish_a (r : Result) (s : State) : (finish r s).a = s.a := by cases r <;> rfl
@[simp] theorem finish_latch (r : Result) (s : State) : (finish r s).latch = s.latch := by cases r <;> rfl
@[simp] theorem finish_host (r : Result) (s : State) : (finish r s).host = s.host := by cases r <;> rfl
@[simp] theorem finish_schedule (r : Result) (s : State) : (finish r s).schedule = s.schedule := by cases r <;> rfl
@[simp] theorem finish_draws (r : Result) (s : State) : (finish r s).draws = s.draws := by cases r <;> rfl
@[simp] theorem finish_grants (r : Result) (s : State) : (finish r s).grants = s.grants := by cases r <;> rfl
@[simp] theorem finish_passed (r : Result) (s : State) : (finish r s).passed = s.passed := by cases r <;> rfl
@[simp] theorem finish_busy (r : Result) (s : State) : (finish r s).status.busy = false := by cases r <;> rfl

/-- A contract that holds leaves the function's own answer. -/
theorem withContract_true (r : Except Raise Word) :
    withContract true r = (match r with
      | .ok v => .ok [v]
      | .error e => .error e) := rfl

/-- A contract that fails raises CONTRACT(0) whatever the operands are (R255). -/
theorem withContract_false (r : Except Raise Word) : withContract false r = raiseFault .contract 0 := rfl

/-! ### The register window -/

theorem regAt_regOffset (r : Reg) : regAt (regOffset r) = some r := by
  cases r with
  | cmd => rfl
  | status => rfl
  | ctrl => rfl
  | a i => revert i; decide
  | z i => revert i; decide

theorem regOffset_aligned (r : Reg) : regOffset r < 512 ∧ regOffset r % 8 = 0 := by
  cases r with
  | cmd => decide
  | status => decide
  | ctrl => decide
  | a i =>
    have := i.isLt
    simp only [regOffset]
    omega
  | z i =>
    have := i.isLt
    simp only [regOffset]
    omega

/-- The only offset of a register is its own. -/
theorem regAt_eq_some (off : Nat) (r : Reg) (h : regAt off = some r) : off = regOffset r := by
  unfold regAt at h
  split at h
  · cases h
    assumption
  split at h
  · cases h
    assumption
  split at h
  · cases h
    assumption
  split at h
  · cases h
    simp only [regOffset, Fin.val_ofNat]
    omega
  split at h
  · cases h
    simp only [regOffset, Fin.val_ofNat]
    omega
  · cases h

/-- A 64-bit access at a register's address reaches it. -/
@[simp] theorem accessReg_regAddr (r : Reg) : accessReg (regAddr r) 8 = .ok r := by
  have ⟨h1, h2⟩ := regOffset_aligned r
  have e : Config.base + regOffset r - Config.base = regOffset r := by omega
  simp only [accessReg, regAddr, e, regAt_regOffset, h2]
  rw [if_neg (by omega)]
  simp

/-- An access that reaches a register is a 64-bit access at its address. -/
theorem accessReg_eq_ok (addr bytes : Nat) (r : Reg) (h : accessReg addr bytes = .ok r) :
    bytes = 8 ∧ addr = regAddr r := by
  unfold accessReg at h
  split at h
  · cases h
  split at h
  · cases h
  split at h
  · cases h
  split at h
  · rename_i hr
    cases h
    have := regAt_eq_some _ _ hr
    simp only [regAddr]
    omega
  · cases h

/-! ### Register writes -/

/-- A write that is accepted leaves the schedule and the counters as they are, and the host too, unless it is a reset, which
leaves the host its program and begins a run. -/
theorem writeReg_agents (r : Reg) (v : Word) (s t : State) (h : writeReg r v s = .ok t) :
    (t.host = s.host ∨ r = .ctrl ∧ v.getLsbD 0 = true ∧ t = resetRun s.host.program s) ∧
      t.schedule = s.schedule ∧ t.draws = s.draws ∧ t.grants = s.grants ∧ t.passed = s.passed := by
  cases r <;> simp only [writeReg] at h
  · unfold writeCmd at h
    split at h
    · cases h
    · split at h <;> cases h <;> exact ⟨.inl rfl, rfl, rfl, rfl, rfl⟩
  · cases h
    exact ⟨.inl rfl, rfl, rfl, rfl, rfl⟩
  · cases h
    unfold writeCtrl
    split
    · rename_i hv
      exact ⟨.inr ⟨rfl, hv, rfl⟩, rfl, rfl, rfl, rfl⟩
    · exact ⟨.inl rfl, rfl, rfl, rfl, rfl⟩
  · unfold writeOperand at h
    split at h <;> cases h
    exact ⟨.inl rfl, rfl, rfl, rfl, rfl⟩
  · cases h
    exact ⟨.inl rfl, rfl, rfl, rfl, rfl⟩

/-! ### The word of STATUS -/

theorem causeCode_le (c : Cause) : causeCode c ≤ 4 := by cases c <;> decide

@[simp] theorem statusWord_busy (st : Status) : (statusWord st).getLsbD 0 = st.busy := by
  have h1 := st.faultOpc.isLt
  have h2 := st.faultInfo.isLt
  have h3 := causeCode_le st.cause
  have e : (statusWord st).toNat % 2 = st.busy.toNat := by
    simp only [statusWord, BitVec.toNat_ofNat]
    cases st.busy <;> cases st.fault <;> simp <;> omega
  rw [BitVec.getLsbD, Nat.testBit_zero, e]
  cases st.busy <;> rfl

@[simp] theorem statusWord_fault (st : Status) : (statusWord st).getLsbD 1 = st.fault := by
  have h1 := st.faultOpc.isLt
  have h2 := st.faultInfo.isLt
  have h3 := causeCode_le st.cause
  have e : (statusWord st).toNat / 2 % 2 = st.fault.toNat := by
    simp only [statusWord, BitVec.toNat_ofNat]
    cases st.busy <;> cases st.fault <;> simp <;> omega
  rw [BitVec.getLsbD, show (1 : Nat) = 0 + 1 from rfl, Nat.testBit_succ, Nat.testBit_zero, e]
  cases st.fault <;> rfl

/-! ### Host steps, turns, steps -/

/-- The host can take a step when it is running with an operation to do. -/
theorem hostEnabled_of {s : State} {op : HostOp} {rest : List HostOp} (h : s.host.mode = .running)
    (g : s.host.program = op :: rest) : hostEnabled s = true := by
  simp [hostEnabled, h, g]

/-- A host step is an accepted write of a register, or it leaves the block's registers as they are. -/
theorem hostStep_cases (s : State) :
    ((hostStep s).latch = s.latch ∧ (hostStep s).status = s.status ∧ (hostStep s).a = s.a ∧
      (hostStep s).z = s.z) ∨
    ∃ r v rest, s.host.program = wr r v :: rest ∧ writeReg r v (setProgram rest s) = .ok (hostStep s) := by
  unfold hostStep
  split
  · exact .inl ⟨rfl, rfl, rfl, rfl⟩
  · left
    unfold hostReadAt
    split <;> simp
  · rename_i addr bytes v rest hp
    unfold hostWriteAt
    split
    · left
      simp
    · rename_i r hr
      split
      · rename_i t ht
        obtain ⟨rfl, rfl⟩ := accessReg_eq_ok _ _ _ hr
        exact .inr ⟨r, v, rest, hp, ht⟩
      · left
        simp
  · left
    unfold hostPoll
    split <;> simp
  · left
    unfold hostCheck
    split <;> simp

/-- A host step leaves the schedule and the position in the free choice as they are. -/
theorem hostStep_turns (s : State) :
    (hostStep s).schedule = s.schedule ∧ (hostStep s).grants = s.grants ∧ (hostStep s).passed = s.passed := by
  unfold hostStep
  split
  · exact ⟨rfl, rfl, rfl⟩
  · unfold hostReadAt
    split <;> simp
  · unfold hostWriteAt
    split
    · simp
    · split
      · rename_i t ht
        obtain ⟨_, h1, _, h2, h3⟩ := writeReg_agents _ _ _ _ ht
        simpa using ⟨h1, h2, h3⟩
      · simp
  · unfold hostPoll
    split <;> simp
  · unfold hostCheck
    split <;> simp

/-- Where no turn is chosen: the agent that has a step moves; where both have one, the host as long as it has been chosen
fewer than `latency` times in a row, else the datapath. -/
theorem freeTurn_cases (s : State) :
    (s.status.busy = true ∧ hostEnabled s = false ∧ freeTurn s = (some .datapath, s)) ∨
    (s.status.busy = true ∧ hostEnabled s = true ∧ Config.latency s.grants ≤ s.passed ∧
      freeTurn s = (some .datapath, { s with grants := s.grants + 1, passed := 0 })) ∨
    (s.status.busy = true ∧ hostEnabled s = true ∧ s.passed < Config.latency s.grants ∧
      freeTurn s = (some .host, { s with passed := s.passed + 1 })) ∨
    (s.status.busy = false ∧ hostEnabled s = true ∧ freeTurn s = (some .host, s)) ∨
    (s.status.busy = false ∧ hostEnabled s = false ∧ freeTurn s = (none, s)) := by
  unfold freeTurn
  cases hb : s.status.busy <;> cases hh : hostEnabled s <;> simp
  exact le_or_gt _ _

/-- A step where a turn is chosen. -/
theorem step_chosen {s : State} {tn : Turn} {rest : List Turn} (h : s.schedule = tn :: rest) :
    step s = takeTurn tn { s with schedule := rest } := by
  simp only [step, h]

/-- A step where no turn is chosen and an agent moves. -/
theorem step_free {s u : State} {tn : Turn} (h : s.schedule = []) (e : freeTurn s = (some tn, u)) :
    step s = takeTurn tn u := by
  unfold step
  split
  · simp_all
  · rw [e]

/-- A step where no turn is chosen and no agent has a step. -/
theorem step_idle {s u : State} (h : s.schedule = []) (e : freeTurn s = (none, u)) : step s = .next u := by
  unfold step
  split
  · simp_all
  · rw [e]

/-- A step is a turn: the oldest chosen one, or, where none is chosen, one of the agents or nothing at all. -/
theorem step_cases (s t : State) (h : step s = .next t) :
    (∃ tn rest, s.schedule = tn :: rest ∧ takeTurn tn { s with schedule := rest } = .next t) ∨
    (s.schedule = [] ∧ ∃ g p, t = { s with grants := g, passed := p } ∨
      takeTurn .host { s with grants := g, passed := p } = .next t ∨
      takeTurn .datapath { s with grants := g, passed := p } = .next t) := by
  unfold step at h
  split at h
  · rename_i tn rest hs
    exact .inl ⟨tn, rest, hs, h⟩
  · rename_i hs
    refine .inr ⟨hs, ?_⟩
    rcases freeTurn_cases s with ⟨_, _, e⟩ | ⟨_, _, _, e⟩ | ⟨_, _, _, e⟩ | ⟨_, _, e⟩ | ⟨_, _, e⟩
    all_goals rw [e] at h
    · exact ⟨_, _, .inr (.inr h)⟩
    · exact ⟨_, _, .inr (.inr h)⟩
    · exact ⟨_, _, .inr (.inl h)⟩
    · exact ⟨_, _, .inr (.inl h)⟩
    · cases h
      exact ⟨_, _, .inl rfl⟩

end Sys2Proof.Laws
end

