-- ==== Sys2Proof/Laws/PerInstr.lean ====
section
/-!
SUPPORT. One statement about every command as syntax, and its lemma for each command: the word of a well-formed command is
its OPC in the low byte and stays below bit 22.
-/

namespace Sys2Proof.Laws.EncodeFields

/-- The word of a well-formed command: the OPC is its low byte, and bits 63:22 are 0 (R80, R83). -/
def Statement (i : Instr) : Prop :=
  i.wellFormed = true → (encode i).toNat % 256 = i.opc ∧ (encode i).toNat < 2 ^ 22

/-- The word of two 7-bit fields and an OPC. -/
theorem of_bounds (i : Instr) (ho : i.opc < 256) (h : i.wellFormed = true → i.widthField < 128 ∧ i.lsbField < 128) :
    Statement i := by
  intro hw
  obtain ⟨h1, h2⟩ := h hw
  simp only [encode, BitVec.toNat_ofNat]
  omega

theorem nop : Statement .nop := of_bounds _ (by decide) (fun _ => by decide)
theorem cscFwd : Statement .cscFwd := of_bounds _ (by decide) (fun _ => by decide)
theorem cscInv : Statement .cscInv := of_bounds _ (by decide) (fun _ => by decide)
theorem blkFwd : Statement .blkFwd := of_bounds _ (by decide) (fun _ => by decide)
theorem blkInv : Statement .blkInv := of_bounds _ (by decide) (fun _ => by decide)
theorem dctFwd : Statement .dctFwd := of_bounds _ (by decide) (fun _ => by decide)
theorem dctInv : Statement .dctInv := of_bounds _ (by decide) (fun _ => by decide)
theorem qa : Statement .qa := of_bounds _ (by decide) (fun _ => by decide)
theorem qbcd : Statement .qbcd := of_bounds _ (by decide) (fun _ => by decide)
theorem qc : Statement .qc := of_bounds _ (by decide) (fun _ => by decide)
theorem dqa : Statement .dqa := of_bounds _ (by decide) (fun _ => by decide)
theorem dqbcd : Statement .dqbcd := of_bounds _ (by decide) (fun _ => by decide)
theorem dqc : Statement .dqc := of_bounds _ (by decide) (fun _ => by decide)
theorem fitsu (w : Nat) : Statement (.fitsu w) :=
  of_bounds _ (by simp [Instr.opc]) (fun h => by
    simpa [Instr.wellFormed, fieldOk, Instr.widthField, Instr.lsbField] using h)
theorem fitss (w : Nat) : Statement (.fitss w) :=
  of_bounds _ (by simp [Instr.opc]) (fun h => by
    simpa [Instr.wellFormed, fieldOk, Instr.widthField, Instr.lsbField] using h)
theorem getu (w l : Nat) : Statement (.getu w l) :=
  of_bounds _ (by simp [Instr.opc]) (fun h => by
    simpa [Instr.wellFormed, fieldOk, Instr.widthField, Instr.lsbField] using h)
theorem gets (w l : Nat) : Statement (.gets w l) :=
  of_bounds _ (by simp [Instr.opc]) (fun h => by
    simpa [Instr.wellFormed, fieldOk, Instr.widthField, Instr.lsbField] using h)
theorem newu (w l : Nat) : Statement (.newu w l) :=
  of_bounds _ (by simp [Instr.opc]) (fun h => by
    simpa [Instr.wellFormed, fieldOk, Instr.widthField, Instr.lsbField] using h)
theorem news (w l : Nat) : Statement (.news w l) :=
  of_bounds _ (by simp [Instr.opc]) (fun h => by
    simpa [Instr.wellFormed, fieldOk, Instr.widthField, Instr.lsbField] using h)
theorem cwPack : Statement .cwPack := of_bounds _ (by decide) (fun _ => by decide)
theorem cwUnpack : Statement .cwUnpack := of_bounds _ (by decide) (fun _ => by decide)
theorem encBlock : Statement .encBlock := of_bounds _ (by decide) (fun _ => by decide)
theorem decBlock : Statement .decBlock := of_bounds _ (by decide) (fun _ => by decide)

end Sys2Proof.Laws.EncodeFields
end

