-- ==== Sys2Proof/Laws/Results.lean ====
section
/-!
SUPPORT. The result format QV, rounding and clamping.
-/

namespace Sys2Proof.Laws

open Sys2Proof.Machine

/-! ### The QV port -/

theorem qvIn_eq (x : Word) : qvIn x = (x.toInt : ℚ) / 521220000000 := by simp [qvIn, Config.qden]

theorem num_of_eq {v : ℚ} {n : Int} (h : v = (n : ℚ)) : v.num = n ∧ v.den = 1 := by
  subst h
  exact ⟨rfl, rfl⟩

/-- A value is on the grid exactly if it is an integer of the signed 64-bit range over QDEN. -/
theorem onGrid_iff (v : ℚ) :
    onGrid v = true ↔ ∃ n : Int, v * 521220000000 = (n : ℚ) ∧ -(2 ^ 63) ≤ n ∧ n ≤ 2 ^ 63 - 1 := by
  unfold onGrid
  simp only [Bool.and_eq_true, decide_eq_true_eq]
  constructor
  · rintro ⟨⟨h1, h2⟩, h3⟩
    refine ⟨_, ?_, h2, h3⟩
    have := (Rat.den_eq_one_iff _).mp h1
    simpa [Config.qden] using this.symm
  · rintro ⟨n, h1, h2, h3⟩
    have e : v * (Config.qden : ℚ) = (n : ℚ) := by rw [← h1]; simp [Config.qden]
    obtain ⟨h4, h5⟩ := num_of_eq e
    rw [h4, h5]
    exact ⟨⟨rfl, h2⟩, h3⟩

theorem qvOut_ok {j : Nat} {v : ℚ} {n : Int} (h : v * 521220000000 = (n : ℚ)) (h2 : -(2 ^ 63) ≤ n)
    (h3 : n ≤ 2 ^ 63 - 1) : qvOut j v = .ok (bits64 n) := by
  have e : v * (Config.qden : ℚ) = (n : ℚ) := by rw [← h]; simp [Config.qden]
  rw [qvOut, if_pos ((onGrid_iff v).mpr ⟨n, h, h2, h3⟩), (num_of_eq e).1]

theorem qvOut_raise {j : Nat} {v : ℚ}
    (h : ∀ n : Int, v * 521220000000 = (n : ℚ) → ¬ (-(2 ^ 63) ≤ n ∧ n ≤ 2 ^ 63 - 1)) :
    qvOut j v = raiseFault .range j := by
  rw [qvOut, if_neg]
  intro g
  obtain ⟨n, h1, h2⟩ := (onGrid_iff v).mp g
  exact h n h1 h2

theorem qvOut_cases (j : Nat) (v : ℚ) : (∃ w, qvOut j v = .ok w) ∨ qvOut j v = raiseFault .range j := by
  unfold qvOut
  split
  · exact .inl ⟨_, rfl⟩
  · exact .inr rfl

/-- A slot read and written back is the slot (R12). -/
@[simp] theorem qvOut_qvIn (j : Nat) (x : Word) : qvOut j (qvIn x) = .ok x := by
  rw [qvOut_ok (n := x.toInt) (by rw [qvIn_eq]; field_simp) (toInt_range x).1 (toInt_range x).2, bits64_toInt]

/-! ### Consecutive result slots -/

theorem qvOutAll_ok {j : Nat} {v : ℚ} {vs : List ℚ} {w : Word} {ws : List Word} (h : qvOut j v = .ok w)
    (g : qvOutAll (j + 1) vs = .ok ws) : qvOutAll j (v :: vs) = .ok (w :: ws) := by
  simp [qvOutAll, h, g]
  rfl

theorem qvOutAll_raise {j : Nat} {v : ℚ} {vs : List ℚ} {r : Raise} (h : qvOut j v = .error r) :
    qvOutAll j (v :: vs) = .error r := by
  simp [qvOutAll, h]
  rfl

theorem qvOutAll_later {j : Nat} {v : ℚ} {vs : List ℚ} {w : Word} {r : Raise} (h : qvOut j v = .ok w)
    (g : qvOutAll (j + 1) vs = .error r) : qvOutAll j (v :: vs) = .error r := by
  simp [qvOutAll, h, g]
  rfl

/-- All values are written, or one of their slots raises RANGE. -/
theorem qvOutAll_cases (vs : List ℚ) : ∀ j, (∃ ws, qvOutAll j vs = .ok ws) ∨
    ∃ k, j ≤ k ∧ k < j + vs.length ∧ qvOutAll j vs = raiseFault .range k := by
  induction vs with
  | nil =>
    intro j
    exact .inl ⟨[], rfl⟩
  | cons v vs ih =>
    intro j
    rcases qvOut_cases j v with ⟨w, hw⟩ | hw
    · rcases ih (j + 1) with ⟨ws, h⟩ | ⟨k, h1, h2, h⟩
      · exact .inl ⟨_, qvOutAll_ok hw h⟩
      · exact .inr ⟨k, by omega, by simp; omega, qvOutAll_later hw h⟩
    · exact .inr ⟨j, le_refl _, by simp, qvOutAll_raise hw⟩

/-! ### Rounding and clamping -/

theorem floor_div (m d : Int) (hd : 0 < d) : ⌊(m : ℚ) / (d : ℚ)⌋ = m / d := by
  lift d to ℕ using hd.le
  exact_mod_cast Rat.floor_intCast_div_natCast m d

/-- Rounding moves a value by at most one half. -/
theorem roundQ_near (x : ℚ) : |(roundQ x : ℚ) - x| ≤ 1 / 2 := by
  unfold roundQ
  split
  · have a := Int.floor_le (x + 1 / 2)
    have b := Int.lt_floor_add_one (x + 1 / 2)
    rw [abs_le]
    constructor <;> linarith
  · have a := Int.floor_le (-x + 1 / 2)
    have b := Int.lt_floor_add_one (-x + 1 / 2)
    rw [abs_le]
    push_cast
    constructor <;> linarith

/-- Rounding keeps an integer upper bound. -/
theorem roundQ_le {x : ℚ} {n : Int} (h : x ≤ n) : roundQ x ≤ n := by
  have := (abs_le.mp (roundQ_near x)).2
  have : (roundQ x : ℚ) < n + 1 := by linarith
  have : roundQ x < n + 1 := by exact_mod_cast this
  omega

/-- Rounding keeps an integer lower bound. -/
theorem le_roundQ {x : ℚ} {n : Int} (h : (n : ℚ) ≤ x) : n ≤ roundQ x := by
  have := (abs_le.mp (roundQ_near x)).1
  have : (n : ℚ) - 1 < roundQ x := by linarith
  have : n - 1 < roundQ x := by exact_mod_cast this
  omega

/-- The clamp of R9 as a minimum and a maximum. -/
theorem clampQ_eq {lo hi : ℚ} (h : lo ≤ hi) (v : ℚ) : clampQ v lo hi = max lo (min hi v) := by
  unfold clampQ
  split
  · rename_i a
    rw [min_eq_right (by linarith), max_eq_left (by linarith)]
  · split
    · rename_i a b
      rw [min_eq_left (by linarith), max_eq_right h]
    · rename_i a b
      push Not at a b
      rw [min_eq_right b, max_eq_right a]

theorem clampQ_mem {lo hi : ℚ} (h : lo ≤ hi) (v : ℚ) : lo ≤ clampQ v lo hi ∧ clampQ v lo hi ≤ hi := by
  rw [clampQ_eq h]
  exact ⟨le_max_left _ _, max_le h (min_le_left _ _)⟩

theorem quantA_range (x : ℚ) : 0 ≤ quantA x ∧ quantA x ≤ 511 := by
  have c := clampQ_mem (show (0 : ℚ) ≤ 1 by norm_num) x
  exact ⟨le_roundQ (by push_cast; linarith), roundQ_le (by push_cast; linarith)⟩

theorem quantBcd_range (x : ℚ) : -15 ≤ quantBcd x ∧ quantBcd x ≤ 15 := by
  have c := clampQ_mem (show (-3 / 10 : ℚ) ≤ 3 / 10 by norm_num) x
  exact ⟨le_roundQ (by push_cast; linarith), roundQ_le (by push_cast; linarith)⟩

theorem quantC_range (x : ℚ) : 0 ≤ quantC x ∧ quantC x ≤ 15 := by
  unfold quantC
  simp only []
  split
  · omega
  · split <;> omega

end Sys2Proof.Laws
end

