-- ==== Sys2Proof/Tests/Slice0.lean ====
section
/-!
SUPPORT. The model's own tests. Expected values come from spec/95_test_vectors.md (the vector is named) or are written out
from the encoding tables of spec/30_encoding.md. The second part holds a witness for the hypotheses of each statement.
-/

namespace Sys2Proof.Tests

open Sys2Proof Sys2Proof.Machine Sys2Proof.Claims

/-! ### Small states and observations -/

/-- The state after reset with these first operand slots. -/
def operands (ws : List Word) : State := { State.reset with a := slotsOf ws }

/-- The state after reset with these first operand slots and a launched command. -/
def launched (cmd : Word) (ws : List Word) : State :=
  { operands ws with latch := cmd, status := { Status.reset with busy := true } }

/-- One step of the machine with the command placed. -/
def runOne (cmd : Nat) (ws : List Word) : Host.Outcome State Fault Refusal := step ((operands ws).withFetchWord 64 cmd)

/-- A result slot of the next state. -/
def zOf (o : Host.Outcome State Fault Refusal) (j : Fin 16) : Option Word :=
  match o with
  | .next t => some t.z[j]
  | .fault _ => none
  | .refused _ => none

/-- STATUS as read in the next state. -/
def statusOf (o : Host.Outcome State Fault Refusal) : Option Word :=
  match o with
  | .next t => some (statusWord t.status)
  | .fault _ => none
  | .refused _ => none

/-- The outcome is a next state. -/
def isNext (o : Host.Outcome State Fault Refusal) : Bool :=
  match o with
  | .next _ => true
  | .fault _ => false
  | .refused _ => false

/-! ### Well-formedness: an ill-formed term for each check -/

theorem test_wellFormed_fitsu_width : (Instr.fitsu 128).wellFormed = false := by decide
theorem test_wellFormed_fitss_width : (Instr.fitss 128).wellFormed = false := by decide
theorem test_wellFormed_getu_width : (Instr.getu 128 0).wellFormed = false := by decide
theorem test_wellFormed_getu_lsb : (Instr.getu 0 128).wellFormed = false := by decide
theorem test_wellFormed_gets_width : (Instr.gets 128 0).wellFormed = false := by decide
theorem test_wellFormed_gets_lsb : (Instr.gets 0 128).wellFormed = false := by decide
theorem test_wellFormed_newu_width : (Instr.newu 128 0).wellFormed = false := by decide
theorem test_wellFormed_newu_lsb : (Instr.newu 0 128).wellFormed = false := by decide
theorem test_wellFormed_news_width : (Instr.news 128 0).wellFormed = false := by decide
theorem test_wellFormed_news_lsb : (Instr.news 0 128).wellFormed = false := by decide
theorem test_wellFormed_largest : (Instr.news 127 127).wellFormed = true := by decide

/-! ### Decoding: a word written out bit by bit from R80 and R81, LSB in 21:15, WIDTH in 14:8, OPC in 7:0 -/

theorem test_decode_nop : decode (0b0000000000000000000000 : Word) = .instr .nop := by decide
theorem test_decode_cscFwd : decode (0b0000000000000000000001 : Word) = .instr .cscFwd := by decide
theorem test_decode_cscInv : decode (0b0000000000000000000010 : Word) = .instr .cscInv := by decide
theorem test_decode_blkFwd : decode (0b0000000000000000000011 : Word) = .instr .blkFwd := by decide
theorem test_decode_blkInv : decode (0b0000000000000000000100 : Word) = .instr .blkInv := by decide
theorem test_decode_dctFwd : decode (0b0000000000000000000101 : Word) = .instr .dctFwd := by decide
theorem test_decode_dctInv : decode (0b0000000000000000000110 : Word) = .instr .dctInv := by decide
theorem test_decode_qa : decode (0b0000000000000000010000 : Word) = .instr .qa := by decide
theorem test_decode_qbcd : decode (0b0000000000000000010001 : Word) = .instr .qbcd := by decide
theorem test_decode_qc : decode (0b0000000000000000010010 : Word) = .instr .qc := by decide
theorem test_decode_dqa : decode (0b0000000000000000010011 : Word) = .instr .dqa := by decide
theorem test_decode_dqbcd : decode (0b0000000000000000010100 : Word) = .instr .dqbcd := by decide
theorem test_decode_dqc : decode (0b0000000000000000010101 : Word) = .instr .dqc := by decide
theorem test_decode_cwPack : decode (0b0000000000000000110000 : Word) = .instr .cwPack := by decide
theorem test_decode_cwUnpack : decode (0b0000000000000000110001 : Word) = .instr .cwUnpack := by decide
theorem test_decode_encBlock : decode (0b0000000000000001000000 : Word) = .instr .encBlock := by decide
theorem test_decode_decBlock : decode (0b0000000000000001000001 : Word) = .instr .decBlock := by decide
theorem test_decode_fitsu : decode (0b0000000000100100100000 : Word) = .instr (.fitsu 9) := by decide
theorem test_decode_fitss : decode (0b0000000000010100100001 : Word) = .instr (.fitss 5) := by decide
theorem test_decode_getu : decode (0b0010111000100100100010 : Word) = .instr (.getu 9 23) := by decide
theorem test_decode_gets : decode (0b0010010000010100100011 : Word) = .instr (.gets 5 18) := by decide
theorem test_decode_newu : decode (0b0000000100000000100100 : Word) = .instr (.newu 64 0) := by decide
theorem test_decode_news : decode (0b0001101000010100100101 : Word) = .instr (.news 5 13) := by decide
theorem test_decode_reserved_bit : decode 0x00400000 = .illegal .reservedBits := by decide
theorem test_decode_top_bit : decode 0x8000000000000000 = .illegal .reservedBits := by decide
theorem test_decode_undefined_opc : decode 0x07 = .illegal .undefinedOpc := by decide
theorem test_decode_width_not_zero : decode 0x0101 = .illegal .widthNotZero := by decide
theorem test_decode_lsb_not_zero : decode 0x00008520 = .illegal .lsbNotZero := by decide
/-- The width is checked before the offset (R86). -/
theorem test_decode_both_not_zero : decode 0x8110 = .illegal .widthNotZero := by decide
theorem test_encode_newu : encode (.newu 12 4) = 0x00020C24 := by decide
theorem test_decodeTableWord : decodeTableWord 64 0x00090523 = some (.gets 5 18) := by decide

/-! ### Reset -/

theorem test_reset_status : statusWord State.reset.status = 0 := by decide

/-! ### One step of each command, from spec/95_test_vectors.md -/

/-- R200: NOP names no result. -/
theorem test_nop_clears : zOf (runOne 0x00 [1]) 0 = some 0 := by decide
/-- V-CSC-2, Pb; V-CSC-8. -/
theorem test_cscFwd :
    zOf (runOne 0x01 [0xFF0000]) 1 = some 0xFFFFFFEB85DB3380 ∧
    zOf (runOne 0x01 [0xFFFFFFFFFF0000FF]) 0 = some 0x0000000DD5A73540 := by decide +kernel
/-- V-CSC-13; V-CSC-15. -/
theorem test_cscInv :
    zOf (runOne 0x02 [0x0000003CAD910480, 0x0000003CAD910480, 0x0000003CAD910480]) 0 = some 0xFF00FF ∧
    zOf (runOne 0x02 [0, 0xFFFFFFDB97DC3080, 0xFFFFFFDB97DC3080]) 0 = some 0x5000 := by decide +kernel
/-- V-BLK-4; V-BLK-3. -/
theorem test_blkFwd :
    zOf (runOne 0x03 [0, 4, 0xFFFFFFFFFFFFFFFC]) 5 = some 0xFFFFFFFFFFFFFFFF ∧
    statusOf (runOne 0x03 [0, 0, 2]) = some 0x50342 := by decide +kernel
/-- V-BLK-5. -/
theorem test_blkInv_order : zOf (runOne 0x04 [0x0000003CAD910480, 0x0000001E56C88240, 0, 0x000000795B220900, 0x000000026D57B880, 0xFFFFFFFD92A84780]) 3 = some 0x0000001E56C88240 := by decide
/-- V-BLK-5, pixel 4. -/
theorem test_blkInv_chroma : zOf (runOne 0x04 [0x0000003CAD910480, 0x0000001E56C88240, 0, 0x000000795B220900, 0x000000026D57B880, 0xFFFFFFFD92A84780]) 11 = some 0xFFFFFFFD92A84780 := by decide
/-- V-DCT-5; V-DCT-4. -/
theorem test_dctFwd :
    zOf (runOne 0x05 [2, 2]) 1 = some 0xFFFFFFFFFFFFFFFF ∧
    statusOf (runOne 0x05 [1]) = some 0x542 := by decide +kernel
/-- V-DCT-8; V-DCT-9. -/
theorem test_dctInv :
    zOf (runOne 0x06 [0x0000001E56C88240, 0x0000000C22B69A80, 0xFFFFFFF9EEA4B2C0, 0x000000026D57B880]) 2 = some 0x0000002E1D82B180 ∧
    statusOf (runOne 0x06 [0x4000000000000000, 0x4000000000000000]) = some 0x20642 := by decide +kernel
/-- V-Q-6, 255.5 rounds away from zero; V-Q-4, 3/2 is clamped to 1. -/
theorem test_qa :
    zOf (runOne 0x10 [0x0000003CAD910480]) 0 = some 0x100 ∧
    zOf (runOne 0x10 [0x000000B608B30D80]) 0 = some 0x1FF := by decide +kernel
/-- V-Q-16, -0.5 rounds away from zero; V-Q-14. -/
theorem test_qbcd :
    zOf (runOne 0x11 [0xFFFFFFFEC95423C0]) 0 = some 0xFFFFFFFFFFFFFFFF ∧
    zOf (runOne 0x11 [0xFFFFFF86A4DDF700]) 0 = some 0xFFFFFFFFFFFFFFF1 := by decide +kernel
/-- V-Q-19, 7.5 rounds to 8; V-Q-23. -/
theorem test_qc :
    zOf (runOne 0x12 [0]) 0 = some 8 ∧
    zOf (runOne 0x12 [0xFFFFFFC3526EFB80]) 0 = some 0 := by decide +kernel
/-- V-Q-28; V-Q-31. -/
theorem test_dqa :
    zOf (runOne 0x13 [0x1]) 0 = some 0x000000003CCBF700 ∧
    zOf (runOne 0x13 [0x200]) 0 = some 0 := by decide +kernel
/-- V-Q-36, field -16; V-Q-38. -/
theorem test_dqbcd :
    zOf (runOne 0x14 [0x10]) 0 = some 0xFFFFFFD92A847800 ∧
    zOf (runOne 0x14 [0x20]) 0 = some 0 := by decide +kernel
/-- V-Q-42; V-Q-45. -/
theorem test_dqc :
    zOf (runOne 0x15 [0x8]) 0 = some 0x000000026D57B880 ∧
    zOf (runOne 0x15 [0x1F]) 0 = some 0x000000246823CF80 := by decide +kernel
/-- V-SRC-1, 2^63 in 63 bits. -/
theorem test_fitsu_power : zOf (runOne 0x00003F20 [0x8000000000000000]) 0 = some 0 := by decide
/-- V-SRC-9. -/
theorem test_fitsu_zero_width : zOf (runOne 0x00000020 [0]) 0 = some 1 := by decide
/-- V-SRC-1, -16 in 5 bits. -/
theorem test_fitss_low : zOf (runOne 0x00000521 [0xFFFFFFFFFFFFFFF0]) 0 = some 1 := by decide
/-- V-SRC-1, -17 in 5 bits. -/
theorem test_fitss_below : zOf (runOne 0x00000521 [0xFFFFFFFFFFFFFFEF]) 0 = some 0 := by decide
/-- V-SRC-9, width 0 at offset 64. -/
theorem test_getu_zero_width : zOf (runOne 0x00200022 [0x0123456789ABCDEF]) 0 = some 0 := by decide
/-- V-SRC-1. -/
theorem test_getu_field : zOf (runOne 0x000B8922 [0x01234567FFABCDEF]) 0 = some 0x1FF := by decide
/-- V-SRC-1. -/
theorem test_gets_negative : zOf (runOne 0x00040523 [0xFFFFFFFFFFFFF0FF]) 0 = some 0xFFFFFFFFFFFFFFF0 := by decide
/-- V-SRC-1. -/
theorem test_gets_full : zOf (runOne 0x00004023 [0x8000000000000000]) 0 = some 0x8000000000000000 := by decide
/-- V-SRC-1. -/
theorem test_newu_field : zOf (runOne 0x000B8924 [0x0123456789ABCDEF, 0x1FF]) 0 = some 0x01234567FFABCDEF := by decide
/-- V-SRC-1. -/
theorem test_newu_full : zOf (runOne 0x00004024 [0x0123456789ABCDEF, 0xFEDCBA9876543210]) 0 = some 0xFEDCBA9876543210 := by decide
/-- V-SRC-1. -/
theorem test_news_negative : zOf (runOne 0x00040525 [0xFFFFFFFFFFFFFFFF, 0xFFFFFFFFFFFFFFF0]) 0 = some 0xFFFFFFFFFFFFF0FF := by decide
/-- V-SRC-1. -/
theorem test_news_minus_one : zOf (runOne 0x00068525 [0x0123456789ABCDEF, 0xFFFFFFFFFFFFFFFF]) 0 = some 0x0123456789ABEDEF := by decide
/-- V-SRC-7. -/
theorem test_cwPack_all_ones : zOf (runOne 0x30 [511, 0xFFFFFFFFFFFFFFFF, 0xFFFFFFFFFFFFFFFF, 0xFFFFFFFFFFFFFFFF, 15, 15]) 0 = some 0xFFFFFFFF := by decide
/-- V-SRC-7, field 0 is reported. -/
theorem test_cwPack_first_overflow : statusOf (runOne 0x30 [512, 16, 0, 0, 16, 0]) = some 0x3032 := by decide
/-- R191, R193: field b of all ones. -/
theorem test_cwUnpack_signed : zOf (runOne 0x31 [0xFFFFFFFFFFFFFFFF]) 1 = some 0xFFFFFFFFFFFFFFFF := by decide
/-- V-SRC-3, field a is 257, bits 63:32 are ignored. -/
theorem test_cwUnpack_a : zOf (runOne 0x31 [0xFFFFFFFF80800088]) 0 = some 0x101 := by decide
/-- V-SRC-3. -/
theorem test_encBlock_gray : zOf (runOne 0x40 [0x808080, 0x808080, 0x808080, 0x808080]) 0 = some 0x80800088 := by decide +kernel
/-- V-SRC-3, pixel 4. -/
theorem test_decBlock_gray : zOf (runOne 0x41 [0x80800088]) 3 = some 0x877A89 := by decide +kernel
/-- R251, R253: cause 1, FAULT_OPC 7. -/
theorem test_illegal_word : statusOf (runOne 0x07 [1]) = some 0x712 := by decide

/-! ### Framing: V-SRC-4 -/

/-- The bytes of R210. -/
theorem test_frame_magic : magicLine = magicBytes := by decide
theorem test_frame_stream : (frameStream 4 2 [0x58ED4348, 0xAC993394]).drop 33 =
    [0x34, 0x20, 0x32, 0x0A, 0x58, 0xED, 0x43, 0x48, 0xAC, 0x99, 0x33, 0x94] := by
  simp [frameStream, dimensionLine, decimal, magicLine, digitByte, codewordBytes, field]
/-- R212: no digit of the width, no separator, no digit of the height. -/
theorem test_parse_refused :
    parseStream (magicBytes ++ [0x2B, 0x34]) = .error .widthDigits ∧
    parseStream (magicBytes ++ [0x34, 0x2C, 0x32]) = .error .separator ∧
    parseStream (magicBytes ++ [0x34, 0x20]) = .error .heightDigits := by decide
/-- R212, R213: without a newline the body begins right after the height, and a white space byte after the newline is its
first byte. -/
theorem test_parse_body_start :
    parseStream (magicBytes ++ [0x32, 0x20, 0x32, 0x58, 0xED, 0x43, 0x48]) =
      .ok { width := 2, height := 2, codewords := [0x58ED4348] } ∧
    parseStream (magicBytes ++ [0x32, 0x20, 0x32, 0x0A, 0x0A, 0x00, 0x00, 0x88]) =
      .ok { width := 2, height := 2, codewords := [0x0A000088] } := by decide
/-- A leading zero and a run of separator bytes are read (R212). -/
theorem test_parse_lenient : parseStream (magicLine ++ [0x30, 0x34, 0x09, 0x20, 0x32, 0x0A, 0x58, 0xED, 0x43, 0x48, 0xAC,
    0x99, 0x33, 0x94, 0xFF]) = .ok { width := 4, height := 2, codewords := [0x58ED4348, 0xAC993394] } := by decide

/-! ### Operand slots and the end of a run -/

/-- R88: BLK_FWD reads A0 to A11 and no other slot, NEWU reads A0 and A1. -/
theorem test_operandSlots :
    (∀ k : Fin 16, k ∈ operandSlots .blkFwd ↔ k.val ≤ 11) ∧ operandSlots (.newu 9 23) = [0, 1] := by decide
/-- R258: a run that has faulted is over with operations left, one that has not is not. -/
theorem test_faulted_run_is_over :
    runOver { State.reset with status := { Status.reset with fault := true }, host := { program := [.poll], reads := [], mode := .running } } =
      true ∧
    runOver { State.reset with host := { program := [.poll], reads := [], mode := .running } } = false := by decide
/-- R280, R282: a write of CTRL with bit 0 = 1 begins a new run too; the host goes on with its operations. -/
theorem test_srst_begins_run :
    (writeCtrl 1 { State.reset with host := { program := [.check], reads := [7], mode := .running } }).host =
      { program := [.check], reads := [], mode := .running } := by decide
/-- R282, R285, R291: the external reset begins a new run, of which a refused host's reads are no part. -/
theorem test_reset_begins_run :
    observation { refuseHost .narrow State.reset with host := { program := [.poll], reads := [7], mode := .refused .narrow } } =
      none ∧
    (externalReset [.check]
        { State.reset with host := { program := [.poll], reads := [7], mode := .refused .narrow } }).host =
      { program := [.check], reads := [], mode := .running } := by decide

/-! ### Witnesses: states and operands that meet the hypotheses of the statements -/

/-- The faulted block of an illegal word. -/
def faulted : State :=
  { State.reset with
    latch := 0x07
    status := { busy := false, fault := true, cause := .illegal, faultOpc := 0x07, faultInfo := 0 } }

/-- The host is about to do these operations. -/
def hostAt (ops : List HostOp) (s : State) : State := { s with host := { program := ops, reads := [], mode := .running } }

theorem witness_BothResetSourcesClearBlock : (0xFFFFFFFFFFFFFFFF : Word).getLsbD 0 = true := by decide
theorem witness_CtrlWriteOneResets_zero : (0xFFFFFFFFFFFFFFFE : Word).getLsbD 0 = false := by decide
theorem witness_CtrlWriteOneResets_one : (0x0000000000000001 : Word).getLsbD 0 = true := by decide
theorem witness_CmdWrite_busy : (launched 0 []).status.busy = true := by decide
theorem witness_CmdWrite_fault : faulted.status.busy = false ∧ faulted.status.fault = true := by decide
theorem witness_CmdWrite_idle : State.reset.status.busy = false ∧ State.reset.status.fault = false := by decide
theorem witness_OperandSlotRules_busy : (launched 0 []).status.busy = true := by decide
theorem witness_OperandSlotRules_idle : State.reset.status.busy = false ∧ (15 : Fin 16) ≠ 0 := by decide
theorem witness_OperandSlotRules_exec : ∃ t, exec .nop State.reset = .next t := ⟨_, rfl⟩
theorem witness_ReadsAndIgnoredWrites : State.reset.status.busy = false ∧ (launched 0 []).status.busy = true := by decide

theorem witness_HostTurn_write_accepted :
    (hostAt [wr (.a 15) 1] State.reset).host.mode = .running ∧
    (hostAt [wr (.a 15) 1] State.reset).host.program = .write (Config.base + offsetOf (.a 15)) 8 1 :: [] ∧
    ∃ u, writeReg (.a 15) 1 (setProgram [] (hostAt [wr (.a 15) 1] State.reset)) = .ok u := ⟨rfl, rfl, _, rfl⟩
theorem witness_HostTurn_write_refused :
    (hostAt [wr .cmd 1] (launched 0 [])).host.mode = .running ∧
    (hostAt [wr .cmd 1] (launched 0 [])).host.program = .write (Config.base + offsetOf .cmd) 8 1 :: [] ∧
    writeReg .cmd 1 (setProgram [] (hostAt [wr .cmd 1] (launched 0 []))) = .error .cmdWriteBusy := ⟨rfl, rfl, rfl⟩
theorem witness_HostTurn_read :
    (hostAt [rd (.z 15)] State.reset).host.mode = .running ∧
    (hostAt [rd (.z 15)] State.reset).host.program = .read (Config.base + offsetOf (.z 15)) 8 :: [] := ⟨rfl, rfl⟩

/-- An access that reaches no register, as the statement says it. -/
def bad (addr bytes : Nat) : Prop :=
  ¬ (bytes = 8 ∧ ∃ off, addr = Config.base + off ∧ off % 8 = 0 ∧
    (off ≤ 0x10 ∨ 0x80 ≤ off ∧ off ≤ 0xF8 ∨ 0x100 ≤ off ∧ off ≤ 0x178))

theorem witness_BadAccesses_narrow : bad Config.base 4 := by
  rintro ⟨h, _⟩
  omega
theorem witness_BadAccesses_misaligned : bad (Config.base + 4) 8 := by
  rintro ⟨_, off, h, g, _⟩
  omega
theorem witness_BadAccesses_unmapped : bad (Config.base + 0x18) 8 := by
  rintro ⟨_, off, h, g, k⟩
  omega
theorem witness_BadAccesses_after_last : bad (Config.base + 0x180) 8 := by
  rintro ⟨_, off, h, g, k⟩
  omega
theorem witness_BadAccesses_outside : bad (Config.base + 0x200) 8 := by
  rintro ⟨_, off, h, g, k⟩
  omega
theorem witness_BadAccesses_state :
    (hostAt [.read Config.base 4] State.reset).host.mode = .running ∧
    (hostAt [.read Config.base 4] State.reset).host.program = .read Config.base 4 :: [] := ⟨rfl, rfl⟩

theorem witness_RefusedHost :
    (refuseHost .narrow State.reset).host.mode = .refused .narrow ∧
    (refuseHost .narrow State.reset).status.busy = false ∧ (refuseHost .narrow State.reset).schedule = [] :=
  ⟨rfl, rfl, rfl⟩
theorem witness_PollAndCheck_poll :
    (hostAt [.poll] (launched 0 [])).host.mode = .running ∧
    (hostAt [.poll] (launched 0 [])).host.program = .poll :: [] := ⟨rfl, rfl⟩
theorem witness_PollAndCheck_check :
    (hostAt [.check] faulted).host.mode = .running ∧ (hostAt [.check] faulted).host.program = .check :: [] :=
  ⟨rfl, rfl⟩

theorem witness_StepRunsDecoded_chosen :
    (launched 0 []).status.busy = true ∧ decode (launched 0 []).latch = .instr .nop ∧
    { launched 0 [] with schedule := [.datapath] }.schedule = .datapath :: [] := by decide
theorem witness_StepRunsDecoded_alone :
    (launched 0 []).status.busy = true ∧ decode (launched 0 []).latch = .instr .nop ∧
    (launched 0 []).schedule = [] ∧ hostEnabled (launched 0 []) = false := by decide
theorem witness_StepRunsDecoded_both :
    (hostAt [.poll] (launched 0 [])).status.busy = true ∧
    decode (hostAt [.poll] (launched 0 [])).latch = .instr .nop ∧
    (hostAt [.poll] (launched 0 [])).schedule = [] ∧ hostEnabled (hostAt [.poll] (launched 0 [])) = true := by decide
theorem witness_IllegalWords :
    legalWord (launched 0x00400000 []).latch = false ∧ legalWord (launched 0x42 []).latch = false ∧
    legalWord (launched 0x00008020 []).latch = false ∧ legalWord (launched 0x003FFF25 []).latch = true := by decide
theorem witness_StepKeepsStatusLegal :
    LegalState (launched 0x07 []) ∧ ∃ t, step (launched 0x07 []) = .next t :=
  ⟨by unfold LegalState; decide, _, rfl⟩
theorem witness_CommandsDepend :
    (operands [5]).latch = { operands [5] with draws := 3 }.latch ∧
    (operands [5]).a = { operands [5] with draws := 3 }.a ∧
    (∃ t, exec .qa (operands [5]) = .next t) ∧ ∃ t, exec .qa { operands [5] with draws := 3 } = .next t :=
  ⟨rfl, rfl, ⟨_, rfl⟩, _, rfl⟩
theorem witness_FaultsAreSticky_kept :
    LegalState faulted ∧ faulted.status.fault = true ∧ ∃ t, step faulted = .next t :=
  ⟨by unfold LegalState; decide, rfl, _, rfl⟩
theorem witness_FaultsAreSticky_reset :
    LegalState { faulted with schedule := [.reset []] } ∧ { faulted with schedule := [.reset []] }.status.fault = true ∧
    ∃ t, step { faulted with schedule := [.reset []] } = .next t :=
  ⟨by unfold LegalState; decide, rfl, _, rfl⟩
theorem witness_FaultsAreSticky_ctrl :
    LegalState (hostAt [wr .ctrl 1] faulted) ∧ (hostAt [wr .ctrl 1] faulted).status.fault = true ∧
    ∃ t, step (hostAt [wr .ctrl 1] faulted) = .next t :=
  ⟨by unfold LegalState; decide, rfl, _, rfl⟩
theorem witness_OnlyResetInside_stuck :
    ∃ rest, { State.reset with schedule := [.resetDuringAccess] }.schedule = .resetDuringAccess :: rest := ⟨[], rfl⟩
theorem witness_OnlyResetInside_goes_on : ¬ ∃ rest, State.reset.schedule = .resetDuringAccess :: rest := by
  rintro ⟨rest, h⟩
  cases h

theorem witness_DecodeOfEncode : (Instr.news 127 127).wellFormed = true ∧ (Instr.fitsu 0).wellFormed = true := by decide
theorem witness_EncodeOfDecode : decode 0x003FFF25 = .instr (.news 127 127) := by decide

theorem witness_NopClearsResults : faulted.status.busy = false ∧ faulted.status.fault = true := by decide
theorem witness_BlkFwd_averages :
    (4 : Int) ∣ (operands [0, 4]).a[1].toInt + (operands [0, 4]).a[4].toInt + (operands [0, 4]).a[7].toInt +
      (operands [0, 4]).a[10].toInt ∧
    (4 : Int) ∣ (operands [0, 4]).a[2].toInt + (operands [0, 4]).a[5].toInt + (operands [0, 4]).a[8].toInt +
      (operands [0, 4]).a[11].toInt := by decide
theorem witness_BlkFwd_range4 :
    ¬ (4 : Int) ∣ (operands [0, 1]).a[1].toInt + (operands [0, 1]).a[4].toInt + (operands [0, 1]).a[7].toInt +
      (operands [0, 1]).a[10].toInt := by decide
theorem witness_BlkFwd_range5 :
    (4 : Int) ∣ (operands [0, 0, 1]).a[1].toInt + (operands [0, 0, 1]).a[4].toInt + (operands [0, 0, 1]).a[7].toInt +
      (operands [0, 0, 1]).a[10].toInt ∧
    ¬ (4 : Int) ∣ (operands [0, 0, 1]).a[2].toInt + (operands [0, 0, 1]).a[5].toInt + (operands [0, 0, 1]).a[8].toInt +
      (operands [0, 0, 1]).a[11].toInt := by decide

/-- The four sums of DCT_FWD. -/
def fwdSums (s : State) : Vector Int 4 :=
  #v[s.a[0].toInt + s.a[1].toInt + s.a[2].toInt + s.a[3].toInt, s.a[3].toInt + s.a[2].toInt - s.a[1].toInt - s.a[0].toInt,
    s.a[3].toInt - s.a[2].toInt + s.a[1].toInt - s.a[0].toInt, s.a[3].toInt - s.a[2].toInt - s.a[1].toInt + s.a[0].toInt]

theorem witness_DctFwd_exact : ∀ j : Fin 4, 4 ∣ (fwdSums (operands [2, 2]))[j] := by decide
theorem witness_DctFwd_range0 : ¬ 4 ∣ (fwdSums (operands [1]))[(0 : Fin 4)] := by decide
theorem witness_DctFwd_range1 :
    ¬ 4 ∣ (fwdSums (operands [1, 2, 1]))[(1 : Fin 4)] ∧ 4 ∣ (fwdSums (operands [1, 2, 1]))[(0 : Fin 4)] := by decide
theorem witness_DctFwd_range2 :
    ¬ 4 ∣ (fwdSums (operands [1, 1, 2]))[(2 : Fin 4)] ∧
    ∀ k : Fin 4, k < 2 → 4 ∣ (fwdSums (operands [1, 1, 2]))[k] := by decide

/-- The four sums of DCT_INV. -/
def invSums (s : State) : Vector Int 4 :=
  #v[s.a[0].toInt - s.a[1].toInt - s.a[2].toInt + s.a[3].toInt, s.a[0].toInt - s.a[1].toInt + s.a[2].toInt - s.a[3].toInt,
    s.a[0].toInt + s.a[1].toInt - s.a[2].toInt - s.a[3].toInt, s.a[0].toInt + s.a[1].toInt + s.a[2].toInt + s.a[3].toInt]

/-- The range of a QV slot. -/
def inSlot (n : Int) : Prop := -0x8000000000000000 ≤ n ∧ n ≤ 0x7FFFFFFFFFFFFFFF

theorem witness_DctInv_exact : ∀ j : Fin 4, inSlot (invSums (operands [0x7FFFFFFFFFFFFFFF]))[j] := by
  unfold inSlot
  decide
theorem witness_DctInv_range0 : ¬ inSlot (invSums (operands [0x7FFFFFFFFFFFFFFF, 0, 0, 1]))[(0 : Fin 4)] := by
  unfold inSlot
  decide
theorem witness_DctInv_range1 :
    ¬ inSlot (invSums (operands [0x7FFFFFFFFFFFFFFF, 0, 1, 0]))[(1 : Fin 4)] ∧
    inSlot (invSums (operands [0x7FFFFFFFFFFFFFFF, 0, 1, 0]))[(0 : Fin 4)] := by
  unfold inSlot
  decide
theorem witness_DctInv_range2 :
    ¬ inSlot (invSums (operands [0x7FFFFFFFFFFFFFFF, 1]))[(2 : Fin 4)] ∧
    ∀ k : Fin 4, k < 2 → inSlot (invSums (operands [0x7FFFFFFFFFFFFFFF, 1]))[k] := by
  unfold inSlot
  decide
theorem witness_DctInv_range3 :
    ¬ inSlot (invSums (operands [0x7FFFFFFFFFFFFFFE, 1, 1, 1]))[(3 : Fin 4)] ∧
    ∀ k : Fin 4, k < 3 → inSlot (invSums (operands [0x7FFFFFFFFFFFFFFE, 1, 1, 1]))[k] := by
  unfold inSlot
  decide
theorem witness_DctRoundTrip :
    4 ∣ (fwdSums (operands [2, 2]))[(0 : Fin 4)] ∧ 4 ∣ (fwdSums (operands [2, 2]))[(1 : Fin 4)] ∧
    4 ∣ (fwdSums (operands [2, 2]))[(2 : Fin 4)] := by decide

theorem witness_QuantizerError_a_low : 0 ≤ qv (operands [0]).a[0] ∧ qv (operands [0]).a[0] ≤ 1 := by decide +kernel
theorem witness_QuantizerError_a_high :
    0 ≤ qv (operands [0x000000795B220900]).a[0] ∧ qv (operands [0x000000795B220900]).a[0] ≤ 1 := by decide +kernel
theorem witness_QuantizerError_b_low :
    -(3 / 10) ≤ qv (operands [0xFFFFFFDB97DC3080]).a[0] ∧ qv (operands [0xFFFFFFDB97DC3080]).a[0] ≤ 3 / 10 := by
  decide +kernel
theorem witness_QuantizerError_b_high :
    -(3 / 10) ≤ qv (operands [0x000000246823CF80]).a[0] ∧ qv (operands [0x000000246823CF80]).a[0] ≤ 3 / 10 := by
  decide +kernel

theorem witness_BitPacker_widths :
    (64 ≤ 64 ∧ 64 + 0 ≤ 64) ∧ (0 ≤ 64 ∧ 0 + 64 ≤ 64) ∧ 64 < 65 ∧ 64 < 1 + 64 ∧ (127 < 128 ∧ 127 < 128) := by decide
theorem witness_NewU_fits :
    (operands [0, 0x1FF]).a[1].toNat < 2 ^ 9 ∧ ¬ (operands [0, 0x200]).a[1].toNat < 2 ^ 9 ∧
    (operands [0, 0xFFFFFFFFFFFFFFFF]).a[1].toNat < 2 ^ 64 := by decide
theorem witness_NewS_fits :
    (-((2 : Int) ^ (5 - 1)) ≤ (operands [0, 0xFFFFFFFFFFFFFFF0]).a[1].toInt ∧
      (operands [0, 0xFFFFFFFFFFFFFFF0]).a[1].toInt ≤ 2 ^ (5 - 1) - 1) ∧
    ¬ (-((2 : Int) ^ (5 - 1)) ≤ (operands [0, 0x10]).a[1].toInt ∧ (operands [0, 0x10]).a[1].toInt ≤ 2 ^ (5 - 1) - 1) ∧
    (operands [0, 0]).a[1] = 0 ∧ (operands [0, 1]).a[1] ≠ 0 := by decide

/-- Which fields fit, as the statement about CW_PACK says it. -/
def packFits (s : State) : Vector Bool 6 :=
  #v[s.a[0].toNat ≤ 511, -16 ≤ s.a[1].toInt && s.a[1].toInt ≤ 15, -16 ≤ s.a[2].toInt && s.a[2].toInt ≤ 15,
    -16 ≤ s.a[3].toInt && s.a[3].toInt ≤ 15, s.a[4].toNat ≤ 15, s.a[5].toNat ≤ 15]

theorem witness_CwPack_all : ∀ k : Fin 6, (packFits (operands [511, 15, -16, 15, 15, 15]))[k] = true := by decide
theorem witness_CwPack_overflow :
    packFits (operands [512]) = #v[false, true, true, true, true, true] ∧
    packFits (operands [0, 16]) = #v[true, false, true, true, true, true] ∧
    packFits (operands [0, 0, -17]) = #v[true, true, false, true, true, true] ∧
    packFits (operands [0, 0, 0, 16]) = #v[true, true, true, false, true, true] ∧
    packFits (operands [0, 0, 0, 0, 16]) = #v[true, true, true, true, false, true] ∧
    packFits (operands [0, 0, 0, 0, 0, 16]) = #v[true, true, true, true, true, false] := by decide
theorem witness_PackAndUnpack_pack :
    ∃ t, exec .cwPack (operands [511, 15, -16, 15, 15, 15]) = .next t ∧ t.status.fault = false :=
  ⟨_, rfl, by decide +kernel⟩
theorem witness_PackAndUnpack_unpack : ∃ t, exec .cwUnpack (operands [0xFFFFFFFFFFFFFFFF]) = .next t := ⟨_, rfl⟩
theorem witness_StageChains : (operands [0xFFFFFF, 0, 0xFF0000, 0x0000FF]).status.fault = false := by decide

theorem witness_FramingRoundTrip :
    0 < 4 ∧ 4 % 2 = 0 ∧ 0 < 2 ∧ 2 % 2 = 0 ∧ ([0x58ED4348, 0xFFFFFFFF] : List Word).length = 4 / 2 * (2 / 2) ∧
    ∀ cw ∈ ([0x58ED4348, 0xFFFFFFFF] : List Word), cw.toNat < 2 ^ 32 := by simp
theorem witness_BadStreams_magic : ([] : List Byte).take 33 ≠ magicBytes := by decide
theorem witness_BadStreams_widthDigits : startsWithout digit [0x2F] ∧ startsWithout digit [0x3A] ∧ startsWithout digit [] := by
  simp [startsWithout, digit]
theorem witness_BadStreams_separator :
    runOf digit [0x30, 0x39] ∧ startsWithout digit [0x08] ∧ startsWithout separator [0x08] ∧
    startsWithout digit [] ∧ startsWithout separator [] := by simp [runOf, startsWithout, digit, separator]
theorem witness_BadStreams_heightDigits :
    runOf digit [0x34] ∧ runOf separator [0x20, 0x09, 0x0D] ∧ startsWithout separator [0x0E] ∧ startsWithout digit [0x0E] := by
  simp [runOf, startsWithout, digit, separator]
/-- The line "04", a tab and a space, "2". -/
theorem witness_dimensionBytes : dimensionBytes 4 2 [0x30, 0x34, 0x09, 0x20, 0x32] :=
  ⟨[0x30, 0x34], [0x09, 0x20], [0x32], rfl, by simp [runOf, digit], by simp [runOf, separator], by simp [runOf, digit],
    by decide, by decide⟩
theorem witness_BadStreams_dimensions :
    dimensionBytes 0 3 [0x30, 0x0A, 0x33] ∧ startsWithout digit [] ∧ (0 = 0 ∨ 0 % 2 = 1 ∨ 3 = 0 ∨ 3 % 2 = 1) :=
  ⟨⟨[0x30], [0x0A], [0x33], rfl, by simp [runOf, digit], by simp [runOf, separator], by simp [runOf, digit], by decide,
    by decide⟩, by simp [startsWithout], by decide⟩
theorem witness_BadStreams_short :
    0 < 4 ∧ 4 % 2 = 0 ∧ 0 < 2 ∧ 2 % 2 = 0 ∧
    ([0x58, 0xED, 0x43, 0x48, 0xAC, 0x99, 0x33] : List Byte).length < 4 * (4 / 2 * (2 / 2)) ∧
    startsWithout digit [0x58, 0xED, 0x43, 0x48, 0xAC, 0x99, 0x33] ∧
    ([0x58, 0xED, 0x43, 0x48, 0xAC, 0x99, 0x33] : List Byte).head? ≠ some 0x0A := by simp [startsWithout, digit]
theorem witness_WrittenStreamForm :
    0 < 4 ∧ 0 < 2 ∧ ([] : List Byte).take 33 ≠ magicBytes ∧ 4 % 2 = 0 ∧ 2 % 2 = 0 ∧
    4 * (4 / 2 * (2 / 2)) ≤ ([0x58, 0xED, 0x43, 0x48, 0xAC, 0x99, 0x33, 0x94] : List Byte).length := by decide
theorem witness_BodyBegins :
    4 * (4 / 2 * (2 / 2)) ≤ ([0x20, 0xED, 0x43, 0x48, 0xAC, 0x99, 0x33, 0x94, 0xFF] : List Byte).length ∧
    startsWithout digit [0x20, 0xED, 0x43, 0x48, 0xAC, 0x99, 0x33, 0x94, 0xFF] ∧
    ([0x20, 0xED, 0x43, 0x48, 0xAC, 0x99, 0x33, 0x94, 0xFF] : List Byte).head? ≠ some 0x0A := by simp [startsWithout, digit]
theorem witness_LaunchPremises :
    operandsHold .encBlock [1, 2, 3, 4] (operands [1, 2, 3, 4, 5]) = true ∧ operandCount .encBlock = 4 := by decide
theorem witness_CommandsReadOnly :
    (operands [5]).latch = (operands [5, 9]).latch ∧
    (∀ k : Fin 16, k.val < operandCount .qa → (operands [5]).a[k] = (operands [5, 9]).a[k]) ∧
    (operands [5]).a ≠ (operands [5, 9]).a := by decide
theorem witness_DatapathStepHappens_free :
    (hostAt [.poll] (launched 0 [])).status.busy = true ∧
    ∀ t ∈ (hostAt [.poll] (launched 0 [])).schedule, t ≠ .resetDuringAccess := by decide
theorem witness_DatapathStepHappens_chosen :
    { launched 0 [] with schedule := [.host, .reset []] }.status.busy = true ∧
    ∀ t ∈ { launched 0 [] with schedule := [.host, .reset []] }.schedule, t ≠ .resetDuringAccess := by decide
theorem witness_PollLoopEnds :
    (hostAt [.poll, .check] (launched 0x07 [])).status.busy = true ∧
    (hostAt [.poll, .check] (launched 0x07 [])).schedule = [] ∧
    (hostAt [.poll, .check] (launched 0x07 [])).host.mode = .running ∧
    (hostAt [.poll, .check] (launched 0x07 [])).host.program = .poll :: [.check] := ⟨rfl, rfl, rfl, rfl⟩
theorem witness_Observation_not_over :
    (launched 0 []).status.busy = true ∧ (hostAt [.check] State.reset).host.program ≠ [] ∧
    (hostAt [.check] State.reset).status.fault = false := by decide
theorem witness_Observation_faulted :
    (hostAt [.poll] faulted).status.busy = false ∧ (hostAt [.poll] faulted).status.fault = true ∧
    ∀ why, (hostAt [.poll] faulted).host.mode ≠ .refused why := ⟨rfl, rfl, by simp [hostAt]⟩
theorem witness_Observation_datapath : ∃ t, datapathStep (launched 0x07 []) = .next t ∧ t.status.fault = true :=
  ⟨_, rfl, rfl⟩
theorem witness_Observation_refused : ∃ why, (refuseHost .narrow State.reset).host.mode = .refused why := ⟨_, rfl⟩
theorem witness_Observation_over :
    (∀ why, faulted.host.mode ≠ .refused why) ∧ faulted.host.program = [] ∧ faulted.status.busy = false := by
  simp [faulted, State.reset]
theorem witness_Observation_srst :
    (hostAt [wr .ctrl 1, .poll] faulted).host.mode = .running ∧
    (hostAt [wr .ctrl 1, .poll] faulted).host.program = .write (Config.base + 0x10) 8 1 :: [.poll] ∧
    (1 : Word).getLsbD 0 = true := ⟨rfl, rfl, by decide⟩
theorem witness_Observation_reset : ∃ t, takeTurn (.reset []) faulted = .next t := ⟨_, rfl⟩
theorem witness_DecompressOfCompress :
    ({ width := 2, height := 2, pixels := List.replicate 4 noPixel } : Raster).wellFormed = true ∧
    (∀ n : Nat, (fun _ : Nat => true) n = true) ∧ 0 < 2 / 2 := ⟨by decide, fun _ => rfl, by decide⟩

end Sys2Proof.Tests
end

section
/-! The registers of the block: reset, the host's writes, and what a command's result depends on (spec/10_state.md). -/

namespace Sys2Proof.Proofs

open Sys2Proof.Machine Sys2Proof.Claims Sys2Proof.Laws

/-! ### The end of a datapath step, in the claims' terms -/

theorem complete_eq_afterSuccess (ws : List Word) (s : State) : complete ws s = afterSuccess s (slotsOf ws) := rfl

theorem recordFault_eq_afterFault (r : Raise) (s : State) :
    recordFault r s = afterFault s r.cause r.info.toNat := by
  simp only [recordFault, afterFault, opc_eq, BitVec.ofNat_toNat, BitVec.setWidth_eq]

/-- What a command computed fixes, for every state it ends in, the result slots of a success or the fault recorded. -/
theorem finish_success_or_fault (r : Result) :
    (∃ z, ∀ s, finish r s = afterSuccess s z) ∨ (∃ c info, ∀ s, finish r s = afterFault s c info) := by
  cases r with
  | ok ws => exact .inl ⟨slotsOf ws, complete_eq_afterSuccess ws⟩
  | error r => exact .inr ⟨r.cause, r.info.toNat, recordFault_eq_afterFault r⟩

/-- A command's next state is the end of a datapath step whose result is a function of the operand slots. -/
theorem exec_next_iff_finish (i : Instr) :
    ∃ f : Slots → Result, ∀ s t, exec i s = .next t ↔ t = finish (f s.a) s := by
  obtain ⟨f, hf⟩ := exec_settles i
  refine ⟨f, fun s t => ?_⟩
  rw [hf, settle, Host.Outcome.next.injEq, eq_comm]

theorem exec_keeps_operands {i : Instr} {s t : State} (h : exec i s = .next t) : t.a = s.a := by
  obtain ⟨f, hf⟩ := exec_next_iff_finish i
  rw [(hf s t).mp h, finish_a]

/-- Settles O16: the operand slots fix what is computed, and that fixes the results or the fault. -/
theorem commandsDependOnLatchAndOperands : Obligations.CommandsDependOnLatchAndOperands := by
  intro i s1 s2 t1 t2 _ ha h1 h2
  obtain ⟨f, hf⟩ := exec_next_iff_finish i
  have e1 : t1 = finish (f s1.a) s1 := (hf s1 t1).mp h1
  have e2 : t2 = finish (f s1.a) s2 := by rw [ha]; exact (hf s2 t2).mp h2
  rcases finish_success_or_fault (f s1.a) with ⟨z, hz⟩ | ⟨c, info, hc⟩
  · exact .inl ⟨z, e1.trans (hz s1), e2.trans (hz s2)⟩
  · exact .inr ⟨c, info, e1.trans (hc s1), e2.trans (hc s2)⟩

/-! ### Reset -/

theorem statusWord_reset : statusWord Status.reset = 0 := by decide

theorem slotsZero_getElem (i : Fin 16) : slotsZero[i] = 0 := by
  revert i
  decide

/-- A state whose four kinds of registers hold the values of R33 reads as a reset block, register by register. -/
theorem blockIsReset_of_resetValues {s : State} (hl : s.latch = 0) (hs : s.status = Status.reset)
    (ha : s.a = slotsZero) (hz : s.z = slotsZero) : blockIsReset s := by
  refine ⟨hl, ?_, fun i => ?_, fun i => ?_⟩
  · rw [hs, statusWord_reset]
  · rw [ha, slotsZero_getElem]
  · rw [hz, slotsZero_getElem]

theorem blockIsReset_reset : blockIsReset State.reset := blockIsReset_of_resetValues rfl rfl rfl rfl

theorem blockIsReset_resetRun (next : List HostOp) (s : State) : blockIsReset (resetRun next s) :=
  blockIsReset_of_resetValues (resetRun_latch next s) (resetRun_status next s) (resetRun_a next s) (resetRun_z next s)

/-! ### Reads and writes of the registers, one equation per case -/

@[simp] theorem readReg_ctrl (s : State) : readReg .ctrl s = 0 := rfl

@[simp] theorem readReg_a (i : Fin 16) (s : State) : readReg (.a i) s = s.a[i] := rfl

theorem writeReg_ctrl_zero {v : Word} (hv : v.getLsbD 0 = false) (s : State) : writeReg .ctrl v s = .ok s := by
  simp only [writeReg, writeCtrl, hv, Bool.false_eq_true, if_false]

theorem writeReg_ctrl_one {v : Word} (hv : v.getLsbD 0 = true) (s : State) :
    writeReg .ctrl v s = .ok (resetRun s.host.program s) := by
  simp only [writeReg, writeCtrl, hv, if_true]

theorem writeReg_cmd_busy {s : State} (hb : s.status.busy = true) (v : Word) :
    writeReg .cmd v s = .error .cmdWriteBusy := by
  simp [writeReg, writeCmd, hb]

theorem writeReg_cmd_faulted {s : State} (hb : s.status.busy = false) (hf : s.status.fault = true) (v : Word) :
    writeReg .cmd v s = .ok s := by
  simp [writeReg, writeCmd, hb, hf]

theorem writeReg_cmd_idle {s : State} (hb : s.status.busy = false) (hf : s.status.fault = false) (v : Word) :
    writeReg .cmd v s = .ok { s with latch := v, status := { s.status with busy := true } } := by
  simp [writeReg, writeCmd, hb, hf]

theorem writeReg_a_busy {s : State} (hb : s.status.busy = true) (i : Fin 16) (v : Word) :
    writeReg (.a i) v s = .error .operandWriteBusy := by
  simp [writeReg, writeOperand, hb]

theorem writeReg_a_idle {s : State} (hb : s.status.busy = false) (i : Fin 16) (v : Word) :
    writeReg (.a i) v s = .ok { s with a := s.a.set i v } := by
  simp [writeReg, writeOperand, hb]

/-! ### Reset and the host's writes -/

/-- Settles O1: the state after reset holds the reset value of every register. -/
theorem resetClearsEveryRegister : Obligations.ResetClearsEveryRegister :=
  ⟨blockIsReset_reset, readReg_ctrl State.reset⟩

/-- Settles O4: bit 0 decides between no change and a reset that begins a run with the host's own operations. -/
theorem ctrlWriteOneResets : Obligations.CtrlWriteOneResets := fun s _ =>
  ⟨readReg_ctrl s, fun hv => writeReg_ctrl_zero hv s,
    fun hv => ⟨_, writeReg_ctrl_one hv s, blockIsReset_resetRun _ s⟩, readReg_ctrl State.reset⟩

/-- Settles O5: one equation of the write for each of the three cases of BUSY and FAULT. -/
theorem cmdWriteRefusedDroppedOrLatched : Obligations.CmdWriteRefusedDroppedOrLatched := fun _ v =>
  ⟨fun hb => writeReg_cmd_busy hb v, fun hb hf => writeReg_cmd_faulted hb hf v,
    fun hb hf => writeReg_cmd_idle hb hf v⟩

/-- Settles O6: the host's accesses by the equations above, a command by the frame of its datapath step. -/
theorem operandSlotRules : Obligations.OperandSlotRules := by
  refine ⟨fun s i v => ⟨readReg_a i s, fun hb => writeReg_a_busy hb i v, fun hb => ?_⟩, slotsZero_getElem,
    fun _ _ _ => exec_keeps_operands⟩
  refine ⟨_, writeReg_a_idle hb i v, ?_, fun j hj => ?_, rfl, rfl, rfl, rfl, rfl, rfl⟩
  · exact Vector.getElem_set_self i.isLt
  · exact Vector.getElem_set_ne i.isLt j.isLt (Fin.val_ne_of_ne hj.symm)

end Sys2Proof.Proofs
end

section
/-! The decoder's verdict (R83 to R86 of spec/30_encoding.md) and the datapath step it decides (R29, R251). -/

namespace Sys2Proof.Proofs

open Sys2Proof.Machine Sys2Proof.Claims Sys2Proof.Laws

/-! ### The rows of the opcode map -/

theorem bareRow_isInstr_iff (i : Instr) (w l : Nat) : (∃ j, bareRow i w l = .instr j) ↔ w = 0 ∧ l = 0 := by
  unfold bareRow
  split
  · next hw => simp [hw]
  · next hw => split <;> simp_all

theorem widthRow_isInstr_iff (i : Nat → Instr) (w l : Nat) : (∃ j, widthRow i w l = .instr j) ↔ l = 0 := by
  unfold widthRow
  split <;> simp_all

/-- The opcodes whose row requires both WIDTH and LSB to be 0 (R81, R84). -/
def bareOpcs : List Nat :=
  [0x00, 0x01, 0x02, 0x03, 0x04, 0x05, 0x06, 0x10, 0x11, 0x12, 0x13, 0x14, 0x15, 0x30, 0x31, 0x40, 0x41]

/-- The opcodes whose row requires LSB alone to be 0. -/
def widthOpcs : List Nat := [0x20, 0x21]

/-- The opcodes whose row leaves both fields free. -/
def freeOpcs : List Nat := [0x22, 0x23, 0x24, 0x25]

/-- What R84 and R85 require of the three fields of a command word. -/
def FieldsLegal (opc w l : Nat) : Prop :=
  opc ∈ bareOpcs ∧ w = 0 ∧ l = 0 ∨ opc ∈ widthOpcs ∧ l = 0 ∨ opc ∈ freeOpcs

/-- The map of R81, row by row, gives a command exactly for the fields of R84 and R85. -/
theorem decodeFields_isInstr_iff (opc w l : Nat) :
    (∃ i, decodeFields opc w l = .instr i) ↔ FieldsLegal opc w l := by
  unfold decodeFields
  split
  -- the last branch of the map: the OPC is in no row
  case h_24 => simp_all [FieldsLegal, bareOpcs, widthOpcs, freeOpcs]
  all_goals simp [FieldsLegal, bareOpcs, widthOpcs, freeOpcs, bareRow_isInstr_iff, widthRow_isInstr_iff]

/-! ### Legal words -/

theorem reservedBits_zero_iff (cmd : Word) : field cmd 42 22 = 0 ↔ cmd.toNat < 2 ^ 22 := by
  have h := cmd.isLt
  unfold field
  omega

theorem legalWord_iff (cmd : Word) :
    legalWord cmd = true ↔
      field cmd 42 22 = 0 ∧ FieldsLegal (field cmd 8 0) (field cmd 7 8) (field cmd 7 15) := by
  rw [reservedBits_zero_iff]
  simp [legalWord, FieldsLegal, bareOpcs, widthOpcs, freeOpcs, field, or_assoc, and_assoc]

/-- The decoder accepts exactly the words that R83 to R85 leave legal. -/
theorem decode_isInstr_iff (cmd : Word) : (∃ i, decode cmd = .instr i) ↔ legalWord cmd = true := by
  rw [legalWord_iff, ← decodeFields_isInstr_iff]
  unfold decode
  split <;> simp_all

theorem decode_illegal_of_not_legalWord {cmd : Word} (h : legalWord cmd = false) : ∃ r, decode cmd = .illegal r := by
  cases hd : decode cmd with
  | illegal r => exact ⟨r, rfl⟩
  | instr i => simp [(decode_isInstr_iff cmd).mp ⟨i, hd⟩] at h

/-! ### The datapath step, one equation per verdict -/

theorem datapathStep_of_instr {s : State} {i : Instr} (h : decode s.latch = .instr i) :
    datapathStep s = exec i s := by
  rw [datapathStep, h]

theorem datapathStep_of_illegal {s : State} {r : IllegalReason} (h : decode s.latch = .illegal r) :
    datapathStep s = .next (afterFault s .illegal 0) := by
  rw [datapathStep, h]
  exact congrArg Host.Outcome.next (recordFault_eq_afterFault _ s)

/-- Settles O13: the decoder accepts exactly the legal words, and the datapath step follows its verdict. -/
theorem illegalWordsRecordIllegal : Obligations.IllegalWordsRecordIllegal := by
  refine fun s => ⟨fun h => ?_, fun h => ?_⟩
  · obtain ⟨r, hr⟩ := decode_illegal_of_not_legalWord h
    exact datapathStep_of_illegal hr
  · obtain ⟨i, hi⟩ := (decode_isInstr_iff s.latch).mpr h
    exact ⟨i, hi, datapathStep_of_instr hi⟩

end Sys2Proof.Proofs
end

section
/-!
The color space commands (spec/40_color_space.md): CSC_FWD puts the exact R112 values on the QV grid and stays in its
range, CSC_INV truncates to channels that fit a byte (R113).
-/

namespace Sys2Proof.Proofs

open Sys2Proof.Machine Sys2Proof.Claims Sys2Proof.Laws

/-! ### The formats in the claims' terms -/

theorem qvIn_eq_qv (x : Word) : qvIn x = qv x := qvIn_eq x

/-- The word of a numerator in the signed 64-bit range stands for it over QDEN (R12). -/
theorem qv_bits64 {n : Int} (hlo : -(2 ^ 63) ≤ n) (hhi : n ≤ 2 ^ 63 - 1) : qv (bits64 n) = n / 521220000000 := by
  rw [qv, toInt_bits64 n hlo hhi]

/-- A slot's value written back to the grid is the slot: a value some slot stands for raises no RANGE (R12). -/
theorem qvOut_qv (j : Nat) (x : Word) : qvOut j (qv x) = .ok x := by
  rw [← qvIn_eq_qv, qvOut_qvIn]

theorem red_lt (x : Word) : red x < 256 := Nat.mod_lt _ (by decide)
theorem green_lt (x : Word) : green x < 256 := Nat.mod_lt _ (by decide)
theorem blue_lt (x : Word) : blue x < 256 := Nat.mod_lt _ (by decide)

@[simp] theorem pixIn_r_toNat (x : Word) : (pixIn x).r.toNat = red x := by simp [pixIn, field, red]
@[simp] theorem pixIn_g_toNat (x : Word) : (pixIn x).g.toNat = green x := by simp [pixIn, field, green]
@[simp] theorem pixIn_b_toNat (x : Word) : (pixIn x).b.toNat = blue x := by simp [pixIn, field, blue]

theorem pixOut_eq_pix (p : Pixel) : pixOut p = pix p.r.toNat p.g.toNat p.b.toNat := by
  rw [pixOut, pix, ← BitVec.ofInt_natCast]
  push_cast
  rfl

/-! ### CSC_FWD -/

/-- The numerator over QDEN of the luma of a pixel (R114). -/
def lumaNum (x : Word) : Int := 2044000 * (299 * red x + 587 * green x + 114 * blue x)

/-- The numerator over QDEN of the blue chroma of a pixel (R114). -/
def chromaBNum (x : Word) : Int := 2044 * (-168736 * red x - 331264 * green x + 500000 * blue x)

/-- The numerator over QDEN of the red chroma of a pixel (R114). -/
def chromaRNum (x : Word) : Int := 2044 * (500000 * red x - 418688 * green x - 81312 * blue x)

theorem lumaNum_range (x : Word) : 0 ≤ lumaNum x ∧ lumaNum x ≤ 521220000000 := by
  have hr := red_lt x
  have hg := green_lt x
  have hb := blue_lt x
  unfold lumaNum
  omega

theorem chromaBNum_range (x : Word) : -260610000000 ≤ chromaBNum x ∧ chromaBNum x ≤ 260610000000 := by
  have hr := red_lt x
  have hg := green_lt x
  have hb := blue_lt x
  unfold chromaBNum
  omega

theorem chromaRNum_range (x : Word) : -260610000000 ≤ chromaRNum x ∧ chromaRNum x ≤ 260610000000 := by
  have hr := red_lt x
  have hg := green_lt x
  have hb := blue_lt x
  unfold chromaRNum
  omega

theorem qv_lumaNum (x : Word) : qv (bits64 (lumaNum x)) = luma x := by
  obtain ⟨hlo, hhi⟩ := lumaNum_range x
  rw [qv_bits64 (by omega) (by omega), lumaNum, luma]
  push_cast
  ring

theorem qv_chromaBNum (x : Word) : qv (bits64 (chromaBNum x)) = chromaB x := by
  obtain ⟨hlo, hhi⟩ := chromaBNum_range x
  rw [qv_bits64 (by omega) (by omega), chromaBNum, chromaB]
  push_cast
  ring

theorem qv_chromaRNum (x : Word) : qv (bits64 (chromaRNum x)) = chromaR x := by
  obtain ⟨hlo, hhi⟩ := chromaRNum_range x
  rw [qv_bits64 (by omega) (by omega), chromaRNum, chromaR]
  push_cast
  ring

theorem rgbToYPbPr_pixIn (x : Word) :
    rgbToYPbPr (pixIn x) = { y := luma x, pb := chromaB x, pr := chromaR x } := by
  simp [rgbToYPbPr, luma, chromaB, chromaR, neg_div]

theorem cscFwdResult_eq (a : Slots) :
    cscFwdResult a = .ok [bits64 (lumaNum a[0]), bits64 (chromaBNum a[0]), bits64 (chromaRNum a[0])] := by
  rw [cscFwdResult, rgbToYPbPr_pixIn, ← qv_lumaNum, ← qv_chromaBNum, ← qv_chromaRNum]
  exact qvOutAll_ok (qvOut_qv 0 _) (qvOutAll_ok (qvOut_qv 1 _) (qvOutAll_ok (qvOut_qv 2 _) rfl))

theorem exec_cscFwd (s : State) :
    exec .cscFwd s = .next (afterSuccess s
      (slots6 (bits64 (lumaNum s.a[0])) (bits64 (chromaBNum s.a[0])) (bits64 (chromaRNum s.a[0])) 0 0 0)) := by
  rw [exec, execCscFwd, cscFwdResult_eq, settle, finish_ok, complete_eq_afterSuccess]
  rfl

/-- Settles O23: all three values are on the QV grid and in range, so the slots hold their numerators. -/
theorem cscFwdWritesExactYPbPr : Obligations.CscFwdWritesExactYPbPr :=
  ⟨by decide, fun s => ⟨_, _, _, exec_cscFwd s, qv_lumaNum _, qv_chromaBNum _, qv_chromaRNum _⟩⟩

/-! ### CSC_INV -/

theorem channel_eq_chan (v : ℚ) : channel v = bits8 (chan v) := by
  rw [channel, chan, clampQ_eq zero_le_one]

theorem chan_range (v : ℚ) : 0 ≤ chan v ∧ chan v ≤ 255 := by
  obtain ⟨hlo, hhi⟩ := clampQ_mem (zero_le_one (α := ℚ)) v
  rw [clampQ_eq zero_le_one] at hlo hhi
  refine ⟨Int.floor_nonneg.mpr (by linarith), Int.floor_le_iff.mpr ?_⟩
  push_cast
  linarith

/-- The byte of a channel holds the channel's value: nothing is cut off (R113). -/
theorem channel_toNat (v : ℚ) : ((channel v).toNat : Int) = chan v := by
  obtain ⟨hlo, hhi⟩ := chan_range v
  rw [channel_eq_chan, bits8, BitVec.toNat_ofInt]
  omega

theorem pixOut_yPbPrToRgb (y pb pr : ℚ) : pixOut (yPbPrToRgb { y := y, pb := pb, pr := pr }) = rgb y pb pr := by
  simp only [pixOut_eq_pix, yPbPrToRgb, channel_toNat, rgb]

theorem cscInvResult_eq (a : Slots) : cscInvResult a = .ok [rgb (qv a[0]) (qv a[1]) (qv a[2])] := by
  simp only [cscInvResult, pixOut_yPbPrToRgb, qvIn_eq_qv]

theorem exec_cscInv (s : State) :
    exec .cscInv s = .next (afterSuccess s (slots1 (rgb (qv s.a[0]) (qv s.a[1]) (qv s.a[2])))) := by
  rw [exec, execCscInv, cscInvResult_eq, settle, finish_ok, complete_eq_afterSuccess]
  rfl

/-- Settles O25: every channel fits its byte, so the written pixel is that of R113, with no way to a fault. -/
theorem cscInvWritesClampedPixel : Obligations.CscInvWritesClampedPixel := ⟨by decide, exec_cscInv⟩

end Sys2Proof.Proofs
end

section
/-!
The chroma block commands (spec/41_chroma_block.md): BLK_FWD writes an average exactly if the sum of its four numerators is
a multiple of 4, and luma never faults; BLK_INV copies bits.
-/

namespace Sys2Proof.Proofs

open Sys2Proof.Machine Sys2Proof.Claims Sys2Proof.Laws

/-! ### The end of a command, by its result -/

theorem settle_ok (ws : List Word) (s : State) : settle (.ok ws) s = .next (afterSuccess s (slotsOf ws)) := by
  rw [settle, finish_ok, complete_eq_afterSuccess]

theorem settle_raiseFault (c : Cause) (info : Nat) (s : State) :
    settle (raiseFault c info) s = .next (afterFault s c info) := by
  rw [settle, finish_raise, recordFault_eq_afterFault]
  simp only [afterFault, BitVec.ofNat_toNat, BitVec.setWidth_eq]

/-! ### A quarter of a numerator on the QV grid (R12) -/

/-- A quarter of a multiple of 4 is a numerator, and is written if it fits the slot. -/
theorem qvOut_quarter_of_dvd {j : Nat} {v : ℚ} {n : Int} (hv : v * 521220000000 = n / 4) (h4 : 4 ∣ n)
    (hlo : -(2 ^ 63) ≤ n / 4) (hhi : n / 4 ≤ 2 ^ 63 - 1) : qvOut j v = .ok (bits64 (n / 4)) := by
  refine qvOut_ok ?_ hlo hhi
  rw [hv, Int.cast_div h4 (by norm_num), Int.cast_ofNat]

/-- A quarter of any other numerator is off the grid. -/
theorem qvOut_quarter_of_not_dvd {j : Nat} {v : ℚ} {n : Int} (hv : v * 521220000000 = n / 4) (h4 : ¬ 4 ∣ n) :
    qvOut j v = raiseFault .range j := by
  refine qvOut_raise fun m hm _ => h4 ⟨m, ?_⟩
  have hq : (n : ℚ) = 4 * m := by linarith
  exact_mod_cast hq

/-! ### The average of four slots -/

/-- The sum of the numerators of four slots, as R130 writes it. -/
def numSum (x1 x2 x3 x4 : Word) : Int := x1.toInt + x2.toInt + x3.toInt + x4.toInt

/-- The average that `sample` of R132 takes of four slots. -/
def qvMean (x1 x2 x3 x4 : Word) : ℚ := (qvIn x1 + qvIn x2 + qvIn x3 + qvIn x4) / 4

theorem qvMean_mul_qden (x1 x2 x3 x4 : Word) :
    qvMean x1 x2 x3 x4 * 521220000000 = (numSum x1 x2 x3 x4 : ℚ) / 4 := by
  simp only [qvMean, numSum, qvIn_eq]
  push_cast
  ring

/-- An average of four slots is in the range of a slot: it can fault only by being off the grid. -/
theorem numSum_div_range (x1 x2 x3 x4 : Word) :
    -(2 ^ 63) ≤ numSum x1 x2 x3 x4 / 4 ∧ numSum x1 x2 x3 x4 / 4 ≤ 2 ^ 63 - 1 := by
  obtain ⟨lo1, hi1⟩ := toInt_range x1
  obtain ⟨lo2, hi2⟩ := toInt_range x2
  obtain ⟨lo3, hi3⟩ := toInt_range x3
  obtain ⟨lo4, hi4⟩ := toInt_range x4
  unfold numSum
  omega

theorem qvOut_qvMean_of_dvd {x1 x2 x3 x4 : Word} (j : Nat) (h4 : 4 ∣ numSum x1 x2 x3 x4) :
    ∃ p : Word, qvOut j (qvMean x1 x2 x3 x4) = .ok p ∧ 4 * p.toInt = numSum x1 x2 x3 x4 := by
  obtain ⟨hlo, hhi⟩ := numSum_div_range x1 x2 x3 x4
  refine ⟨_, qvOut_quarter_of_dvd (qvMean_mul_qden x1 x2 x3 x4) h4 hlo hhi, ?_⟩
  rw [toInt_bits64 _ hlo hhi, Int.mul_ediv_cancel' h4]

theorem qvOut_qvMean_of_not_dvd {x1 x2 x3 x4 : Word} (j : Nat) (h4 : ¬ 4 ∣ numSum x1 x2 x3 x4) :
    qvOut j (qvMean x1 x2 x3 x4) = raiseFault .range j :=
  qvOut_quarter_of_not_dvd (qvMean_mul_qden x1 x2 x3 x4) h4

/-! ### BLK_FWD -/

/-- The averages of R130, written to the slots 4 and 5. -/
def chromaResult (a : Slots) : Result :=
  qvOutAll 4 [qvMean a[1] a[4] a[7] a[10], qvMean a[2] a[5] a[8] a[11]]

/-- A luma slot is written back as it was read, so the chroma alone decides whether BLK_FWD faults. -/
theorem blkFwdResult_eq (a : Slots) :
    blkFwdResult a = (chromaResult a).map ([a[0], a[3], a[6], a[9]] ++ ·) := by
  cases hc : chromaResult a with
  | ok ws =>
    exact qvOutAll_ok (qvOut_qvIn 0 _) (qvOutAll_ok (qvOut_qvIn 1 _)
      (qvOutAll_ok (qvOut_qvIn 2 _) (qvOutAll_ok (qvOut_qvIn 3 _) hc)))
  | error r =>
    exact qvOutAll_later (qvOut_qvIn 0 _) (qvOutAll_later (qvOut_qvIn 1 _)
      (qvOutAll_later (qvOut_qvIn 2 _) (qvOutAll_later (qvOut_qvIn 3 _) hc)))

theorem exec_blkFwd_of_ok {s : State} {pb pr : Word} (h : chromaResult s.a = .ok [pb, pr]) :
    exec .blkFwd s = .next (afterSuccess s (slots6 s.a[0] s.a[3] s.a[6] s.a[9] pb pr)) := by
  rw [exec, execBlkFwd, blkFwdResult_eq, h]
  exact settle_ok _ s

theorem exec_blkFwd_of_raise {s : State} {c : Cause} {info : Nat} (h : chromaResult s.a = raiseFault c info) :
    exec .blkFwd s = .next (afterFault s c info) := by
  rw [exec, execBlkFwd, blkFwdResult_eq, h]
  exact settle_raiseFault c info s

/-- Settles O27: an average is on the QV grid exactly if its sum is a multiple of 4, and Pb is written before Pr. -/
theorem blkFwdAveragesChroma : Obligations.BlkFwdAveragesChroma := by
  refine ⟨by decide, fun s => ⟨fun hb hr => ?_, fun hb => ?_, fun hb hr => ?_⟩⟩
  · obtain ⟨pb, hpb, hpbSum⟩ := qvOut_qvMean_of_dvd 4 hb
    obtain ⟨pr, hpr, hprSum⟩ := qvOut_qvMean_of_dvd 5 hr
    exact ⟨pb, pr, exec_blkFwd_of_ok (qvOutAll_ok hpb (qvOutAll_ok hpr rfl)), hpbSum, hprSum⟩
  · exact exec_blkFwd_of_raise (qvOutAll_raise (qvOut_qvMean_of_not_dvd 4 hb))
  · obtain ⟨pb, hpb, -⟩ := qvOut_qvMean_of_dvd 4 hb
    exact exec_blkFwd_of_raise (qvOutAll_later hpb (qvOutAll_raise (qvOut_qvMean_of_not_dvd 5 hr)))

/-! ### BLK_INV -/

theorem exec_blkInv (s : State) :
    exec .blkInv s = .next (afterSuccess s (slotsOf
      [s.a[0], s.a[4], s.a[5], s.a[1], s.a[4], s.a[5], s.a[2], s.a[4], s.a[5], s.a[3], s.a[4], s.a[5]])) := by
  rw [exec, execBlkInv, blkInvResult, settle_ok]

/-- Settles O28: the command ends in success in every state, and the slots past the twelve copies are 0. -/
theorem blkInvBroadcastsChroma : Obligations.BlkInvBroadcastsChroma := ⟨by decide, exec_blkInv⟩

end Sys2Proof.Proofs
end

section
/-!
The block transform commands (spec/42_block_transform.md): each writes four signed sums of its luma operands, DCT_FWD the
quarters of them, and raises RANGE of the first that is not a numerator a slot can hold; the chroma passes through.
-/

namespace Sys2Proof.Proofs

open Sys2Proof.Machine Sys2Proof.Claims Sys2Proof.Laws

/-! ### The first failing slot -/

/-- The first value off the grid raises RANGE of its own slot (R130, R140, R141). -/
theorem qvOutAll_raise_first {vs : List ℚ} {j i : Nat} (hi : i < vs.length)
    (hr : qvOut (j + i) vs[i] = raiseFault .range (j + i))
    (hok : ∀ k (hk : k < i), ∃ w, qvOut (j + k) vs[k] = .ok w) :
    qvOutAll j vs = raiseFault .range (j + i) := by
  induction vs generalizing j i with
  | nil => simp at hi
  | cons v vs ih =>
    cases i with
    | zero => exact qvOutAll_raise hr
    | succ i =>
      obtain ⟨w, hw⟩ := hok 0 i.succ_pos
      have shift (k : Nat) : j + (k + 1) = j + 1 + k := by omega
      rw [shift] at hr ⊢
      refine qvOutAll_later hw (ih (Nat.lt_of_succ_lt_succ hi) hr fun k hk => ?_)
      rw [← shift]
      exact hok (k + 1) (Nat.succ_lt_succ hk)

/-! ### What the two commands share -/

/-- Four values for the slots 0 to 3, and the chroma copied to the slots 4 and 5 (R140, R141). -/
def transformResult (vals : Vector ℚ 4) (a : Slots) : Result := do
  let ws ← qvOutAll 0 vals.toList
  return ws ++ [a[4], a[5]]

theorem settle_transformResult_of_ok {vals : Vector ℚ 4} {s : State} {w : Fin 4 → Word}
    (h : ∀ j : Fin 4, qvOut j vals[j] = .ok (w j)) :
    settle (transformResult vals s.a) s =
      .next (afterSuccess s (slots6 (w 0) (w 1) (w 2) (w 3) s.a[4] s.a[5])) := by
  have hall : qvOutAll 0 [vals[0], vals[1], vals[2], vals[3]] = .ok [w 0, w 1, w 2, w 3] :=
    qvOutAll_ok (h 0) (qvOutAll_ok (h 1) (qvOutAll_ok (h 2) (qvOutAll_ok (h 3) rfl)))
  have hlist : vals.toList = [vals[0], vals[1], vals[2], vals[3]] := by
    refine List.ext_getElem (by simp) fun i hi _ => ?_
    rw [Vector.length_toList] at hi
    interval_cases i <;> simp
  rw [transformResult, hlist, hall]
  exact settle_ok _ s

theorem settle_transformResult_of_raise {vals : Vector ℚ 4} {s : State} {j : Fin 4}
    (hr : qvOut j vals[j] = raiseFault .range j) (hok : ∀ k : Fin 4, k < j → ∃ w, qvOut k vals[k] = .ok w) :
    settle (transformResult vals s.a) s = .next (afterFault s .range j) := by
  have hall : qvOutAll 0 vals.toList = raiseFault .range j := by
    have := qvOutAll_raise_first (vs := vals.toList) (j := 0) (i := j) (by simp) (by simpa using hr)
      fun k hk => by simpa using hok ⟨k, hk.trans j.isLt⟩ hk
    rwa [Nat.zero_add] at this
  rw [transformResult, hall]
  exact settle_raiseFault _ _ s

/-! ### DCT_FWD -/

/-- The coefficients of R142 of the luma operands, in slot order. -/
def forwardValues (a : Slots) : Vector ℚ 4 :=
  let k := dctForward (qvIn a[0]) (qvIn a[1]) (qvIn a[2]) (qvIn a[3])
  #v[k.a, k.b, k.c, k.d]

/-- The signed sums of numerators whose quarters DCT_FWD writes (R140, with the signs of R142). -/
def forwardSums (a : Slots) : Vector Int 4 :=
  let y1 := a[0].toInt
  let y2 := a[1].toInt
  let y3 := a[2].toInt
  let y4 := a[3].toInt
  #v[y1 + y2 + y3 + y4, y4 + y3 - y2 - y1, y4 - y3 + y2 - y1, y4 - y3 - y2 + y1]

theorem exec_dctFwd (s : State) : exec .dctFwd s = settle (transformResult (forwardValues s.a) s.a) s := rfl

theorem forwardValues_mul_qden (a : Slots) (j : Fin 4) :
    (forwardValues a)[j] * 521220000000 = ((forwardSums a)[j] : ℚ) / 4 := by
  fin_cases j <;> simp [forwardValues, forwardSums, dctForward, qvIn_eq] <;> ring

/-- A quarter sum is in the range of a slot: it can fault only by being off the grid. -/
theorem forwardSums_div_range (a : Slots) (j : Fin 4) :
    -(2 ^ 63) ≤ (forwardSums a)[j] / 4 ∧ (forwardSums a)[j] / 4 ≤ 2 ^ 63 - 1 := by
  obtain ⟨lo1, hi1⟩ := toInt_range a[0]
  obtain ⟨lo2, hi2⟩ := toInt_range a[1]
  obtain ⟨lo3, hi3⟩ := toInt_range a[2]
  obtain ⟨lo4, hi4⟩ := toInt_range a[3]
  fin_cases j <;> simp [forwardSums] <;> omega

theorem qvOut_forwardValues_of_dvd {a : Slots} {j : Fin 4} (h4 : 4 ∣ (forwardSums a)[j]) :
    ∃ w : Word, qvOut j (forwardValues a)[j] = .ok w ∧ 4 * w.toInt = (forwardSums a)[j] := by
  obtain ⟨hlo, hhi⟩ := forwardSums_div_range a j
  refine ⟨_, qvOut_quarter_of_dvd (forwardValues_mul_qden a j) h4 hlo hhi, ?_⟩
  rw [toInt_bits64 _ hlo hhi, Int.mul_ediv_cancel' h4]

theorem qvOut_forwardValues_of_not_dvd {a : Slots} {j : Fin 4} (h4 : ¬ 4 ∣ (forwardSums a)[j]) :
    qvOut j (forwardValues a)[j] = raiseFault .range j :=
  qvOut_quarter_of_not_dvd (forwardValues_mul_qden a j) h4

/-- Settles O29: a coefficient is on the QV grid exactly if its sum is a multiple of 4, and the slots are written in order. -/
theorem dctFwdWritesQuarterSums : Obligations.DctFwdWritesQuarterSums := by
  refine ⟨by decide, fun s => ⟨fun h => ?_, fun j hj hbefore => ?_⟩⟩
  · choose w hw hsum using fun j => qvOut_forwardValues_of_dvd (h j)
    exact ⟨w 0, w 1, w 2, w 3, (exec_dctFwd s).trans (settle_transformResult_of_ok hw), hsum 0, hsum 1, hsum 2, hsum 3⟩
  · refine (exec_dctFwd s).trans (settle_transformResult_of_raise (qvOut_forwardValues_of_not_dvd hj) fun k hk => ?_)
    exact (qvOut_forwardValues_of_dvd (hbefore k hk)).imp fun _ hw => hw.1

/-! ### DCT_INV -/

/-- The luma values of R143 of the coefficient operands, in slot order. -/
def inverseValues (a : Slots) : Vector ℚ 4 :=
  let y := dctInverse { a := qvIn a[0], b := qvIn a[1], c := qvIn a[2], d := qvIn a[3] }
  #v[y.y1, y.y2, y.y3, y.y4]

/-- The signed sums of numerators that DCT_INV writes (R141, with the signs of R143). -/
def inverseSums (s : Slots) : Vector Int 4 :=
  let a := s[0].toInt
  let b := s[1].toInt
  let c := s[2].toInt
  let d := s[3].toInt
  #v[a - b - c + d, a - b + c - d, a + b - c - d, a + b + c + d]

theorem exec_dctInv (s : State) : exec .dctInv s = settle (transformResult (inverseValues s.a) s.a) s := rfl

theorem inverseValues_mul_qden (a : Slots) (j : Fin 4) :
    (inverseValues a)[j] * 521220000000 = ((inverseSums a)[j] : ℚ) := by
  fin_cases j <;> simp [inverseValues, inverseSums, dctInverse, qvIn_eq] <;> ring

theorem qvOut_inverseValues_of_range {a : Slots} {j : Fin 4}
    (h : -(2 ^ 63) ≤ (inverseSums a)[j] ∧ (inverseSums a)[j] ≤ 2 ^ 63 - 1) :
    ∃ w : Word, qvOut j (inverseValues a)[j] = .ok w ∧ w.toInt = (inverseSums a)[j] :=
  ⟨_, qvOut_ok (inverseValues_mul_qden a j) h.1 h.2, toInt_bits64 _ h.1 h.2⟩

/-- A sum of numerators is always on the grid, so only its size can raise RANGE. -/
theorem qvOut_inverseValues_of_not_range {a : Slots} {j : Fin 4}
    (h : ¬ (-(2 ^ 63) ≤ (inverseSums a)[j] ∧ (inverseSums a)[j] ≤ 2 ^ 63 - 1)) :
    qvOut j (inverseValues a)[j] = raiseFault .range j := by
  refine qvOut_raise fun n hn => ?_
  have hsum : n = (inverseSums a)[j] := by
    rw [inverseValues_mul_qden] at hn
    exact_mod_cast hn.symm
  rwa [hsum]

/-- Settles O30: a luma value is on the QV grid exactly if its sum fits the slot, and the slots are written in order. -/
theorem dctInvWritesSums : Obligations.DctInvWritesSums := by
  refine ⟨by decide, fun s => ⟨fun h => ?_, fun j hj hbefore => ?_⟩⟩
  · choose w hw hsum using fun j => qvOut_inverseValues_of_range (h j)
    exact ⟨w 0, w 1, w 2, w 3, (exec_dctInv s).trans (settle_transformResult_of_ok hw), hsum 0, hsum 1, hsum 2, hsum 3⟩
  · refine (exec_dctInv s).trans (settle_transformResult_of_raise (qvOut_inverseValues_of_not_range hj) fun k hk => ?_)
    exact (qvOut_inverseValues_of_range (hbefore k hk)).imp fun _ hw => hw.1

end Sys2Proof.Proofs
end

section
/-!
The quantizer commands (spec/43_quantizer.md): each writes the nearest integer, ties away from zero, of its clamped and scaled
operand. The clamp bounds that integer, so it is in its field's range and the index clamp of QC changes nothing.
-/

namespace Sys2Proof.Proofs

open Sys2Proof.Machine Sys2Proof.Claims Sys2Proof.Laws

/-! ### Rounding and clamping, as the statements write them (R9) -/

theorem nearest_roundQ (x : ℚ) : nearest x (roundQ x) := by
  unfold nearest roundQ
  split
  · rfl
  · rw [neg_add_eq_sub]

/-- The clamp to three tenths either side of 0, which QBCD and QC share (R157, R158). -/
theorem clampQ_threeTenths (x : ℚ) : clampQ x (-3 / 10) (3 / 10) = max (-(3 / 10)) (min (3 / 10) x) := by
  rw [clampQ_eq (by norm_num), neg_div]

theorem nearest_quantA (x : ℚ) : nearest (511 * max 0 (min 1 x)) (quantA x) := by
  rw [quantA, clampQ_eq zero_le_one]
  exact nearest_roundQ _

theorem nearest_quantBcd (x : ℚ) : nearest (50 * max (-(3 / 10)) (min (3 / 10) x)) (quantBcd x) := by
  rw [quantBcd, clampQ_threeTenths]
  exact nearest_roundQ _

/-- The clamped operand of QC has its index in 0 to 15 already: the index clamp of R158 changes nothing. -/
theorem quantC_eq_roundQ (x : ℚ) :
    quantC x = roundQ ((clampQ x (-3 / 10) (3 / 10) - (-3 / 10)) / (6 / 10) * 15) := by
  obtain ⟨hlo, hhi⟩ := clampQ_mem (show (-3 / 10 : ℚ) ≤ 3 / 10 by norm_num) x
  refine (if_neg (le_roundQ ?_).not_gt).trans (if_neg (roundQ_le ?_).not_gt)
  · push_cast; linarith
  · push_cast; linarith

theorem nearest_quantC (x : ℚ) :
    nearest ((max (-(3 / 10)) (min (3 / 10) x) - (-(3 / 10))) / (6 / 10) * 15) (quantC x) := by
  rw [quantC_eq_roundQ, clampQ_threeTenths, neg_div]
  exact nearest_roundQ _

/-! ### QA, QBCD and QC -/

theorem settle_single (x : Word) (s : State) : settle (.ok [x]) s = .next (afterSuccess s (slots1 x)) :=
  settle_ok [x] s

theorem exec_qa (s : State) : exec .qa s = .next (afterSuccess s (slots1 (bits64 (quantA (qv s.a[0]))))) := by
  rw [exec, execQa, settle_single, qvIn_eq_qv]

theorem exec_qbcd (s : State) : exec .qbcd s = .next (afterSuccess s (slots1 (bits64 (quantBcd (qv s.a[0]))))) := by
  rw [exec, execQbcd, settle_single, qvIn_eq_qv]

theorem exec_qc (s : State) : exec .qc s = .next (afterSuccess s (slots1 (bits64 (quantC (qv s.a[0]))))) := by
  rw [exec, execQc, settle_single, qvIn_eq_qv]

/-- Settles O32: each command writes its quantizer's integer, which is the nearest one and in its field's range. -/
theorem quantizersClampAndRound : Obligations.QuantizersClampAndRound := by
  refine ⟨by decide, by decide, by decide, fun s => ⟨?_, ?_, ?_⟩⟩
  · obtain ⟨hlo, hhi⟩ := quantA_range (qv s.a[0])
    exact ⟨_, exec_qa s, hlo, hhi, nearest_quantA _⟩
  · obtain ⟨hlo, hhi⟩ := quantBcd_range (qv s.a[0])
    exact ⟨_, exec_qbcd s, hlo, hhi, nearest_quantBcd _⟩
  · obtain ⟨hlo, hhi⟩ := quantC_range (qv s.a[0])
    exact ⟨_, exec_qc s, hlo, hhi, nearest_quantC _⟩

end Sys2Proof.Proofs
end

section
/-!
The BitPacker commands (spec/44_bitpacker.md): each ends in CONTRACT(0) where the field does not lie in the word (R176), and
else in the answer of its function of R177 to R181, which is read off bit by bit.
-/

namespace Sys2Proof.Proofs

open Sys2Proof.Machine Sys2Proof.Claims Sys2Proof.Laws

/-! ### The words of the commands -/

/-- The decoder takes a word of 7-bit fields and an 8-bit OPC apart into just these (R80, R86, R96). -/
theorem decode_fields {opc w l : Nat} (ho : opc < 256) (hw : w < 128) (hl : l < 128) :
    decode (BitVec.ofNat 64 (l * 2 ^ 15 + w * 2 ^ 8 + opc)) = decodeFields opc w l := by
  have hn : (BitVec.ofNat 64 (l * 2 ^ 15 + w * 2 ^ 8 + opc)).toNat = l * 2 ^ 15 + w * 2 ^ 8 + opc :=
    Nat.mod_eq_of_lt (by omega)
  have h0 : (l * 2 ^ 15 + w * 2 ^ 8 + opc) / 2 ^ 22 % 2 ^ 42 = 0 := by omega
  have hopc : (l * 2 ^ 15 + w * 2 ^ 8 + opc) / 2 ^ 0 % 2 ^ 8 = opc := by omega
  have hwidth : (l * 2 ^ 15 + w * 2 ^ 8 + opc) / 2 ^ 8 % 2 ^ 7 = w := by omega
  have hlsb : (l * 2 ^ 15 + w * 2 ^ 8 + opc) / 2 ^ 15 % 2 ^ 7 = l := by omega
  simp only [decode, field, hn, h0, hopc, hwidth, hlsb, ne_eq, not_true_eq_false, if_false]

theorem widthRow_eq (i : Nat → Instr) (w l : Nat) :
    widthRow i w l = if l = 0 then .instr (i w) else .illegal .lsbNotZero :=
  ite_not ..

/-! ### The contract -/

section Contract

variable {w l : Nat} (s : State)

theorem settle_contract_ok (hw : w ≤ 64) (hl : w + l ≤ 64) (v : Word) :
    settle (withContract (contractOk w l) (.ok v)) s = .next (afterSuccess s (slots1 v)) := by
  rw [contractOk_true hw hl, withContract_true]
  exact settle_single v s

theorem settle_contract_raise (hw : w ≤ 64) (hl : w + l ≤ 64) (c : Cause) (info : Nat) :
    settle (withContract (contractOk w l) (raiseFault c info)) s = .next (afterFault s c info) := by
  rw [contractOk_true hw hl, withContract_true]
  exact settle_raiseFault c info s

/-- A contract that fails is raised before the function's own answer matters (R255). -/
theorem settle_contract_fails (h : 64 < w ∨ 64 < w + l) (r : Except Raise Word) :
    settle (withContract (contractOk w l) r) s = .next (afterFault s .contract 0) := by
  rw [contractOk_false h, withContract_false, settle_raiseFault]

end Contract

/-! ### What each command settles -/

theorem exec_fitsu (w : Nat) (s : State) :
    exec (.fitsu w) s = settle (withContract (contractOk w 0) (.ok (boolOut (fitsU s.a[0].toNat w)))) s := rfl

theorem exec_fitss (w : Nat) (s : State) :
    exec (.fitss w) s = settle (withContract (contractOk w 0) (.ok (boolOut (fitsS s.a[0].toInt w)))) s := rfl

theorem exec_getu (w l : Nat) (s : State) :
    exec (.getu w l) s = settle (withContract (contractOk w l) (.ok (bits64 (getU s.a[0] w l)))) s := rfl

theorem exec_gets (w l : Nat) (s : State) :
    exec (.gets w l) s = settle (withContract (contractOk w l) (.ok (bits64 (getS s.a[0] w l)))) s := rfl

theorem exec_newu (w l : Nat) (s : State) :
    exec (.newu w l) s = settle (withContract (contractOk w l) (newU 1 s.a[0] w l s.a[1].toNat)) s := rfl

theorem exec_news (w l : Nat) (s : State) :
    exec (.news w l) s = settle (withContract (contractOk w l) (newS 1 s.a[0] w l s.a[1].toInt)) s := rfl

/-! ### FITSU and FITSS -/

/-- What R178 asks of a slot read signed: 0 where the width is 0, else the signed range of `w` bits. -/
theorem fitsS_toInt_iff (x : Word) (w : Nat) :
    fitsS x.toInt w = true ↔
      if w = 0 then x = 0 else -((2 : Int) ^ (w - 1)) ≤ x.toInt ∧ x.toInt ≤ 2 ^ (w - 1) - 1 := by
  unfold fitsS
  split
  · rw [decide_eq_true_iff, toInt_eq_zero]
  · rw [Bool.and_eq_true, decide_eq_true_iff, decide_eq_true_iff]

theorem boolOut_fitsU (n w : Nat) : boolOut (fitsU n w) = if n < 2 ^ w then 1 else 0 := by
  simp only [boolOut, fitsU_iff]

theorem boolOut_fitsS_zero (x : Word) : boolOut (fitsS x.toInt 0) = if x = 0 then 1 else 0 := by
  simp only [boolOut, fitsS_toInt_iff, if_true]

theorem boolOut_fitsS_pos (x : Word) {w : Nat} (hw : 0 < w) :
    boolOut (fitsS x.toInt w) =
      if -((2 : Int) ^ (w - 1)) ≤ x.toInt ∧ x.toInt ≤ 2 ^ (w - 1) - 1 then 1 else 0 := by
  simp only [boolOut, fitsS_toInt_iff, hw.ne', if_false]

/-- Settles O36: the offset 0 leaves the width alone to the contract, and the answer is the range of R177 or R178. -/
theorem fitsAnswersRange : Obligations.FitsAnswersRange := by
  refine ⟨fun w l hw hl => ⟨?_, ?_⟩, fun s w => ⟨fun hw => ?_, fun hw => ?_, ?_, fun h0 hw => ?_, fun hw => ?_⟩⟩
  · exact (decode_fields (by decide) hw hl).trans (widthRow_eq .fitsu w l)
  · exact (decode_fields (by decide) hw hl).trans (widthRow_eq .fitss w l)
  · rw [exec_fitsu, settle_contract_ok s hw hw, boolOut_fitsU]
  · rw [exec_fitsu, settle_contract_fails s (.inl hw)]
  · rintro rfl
    rw [exec_fitss, settle_contract_ok s (by decide) (by decide), boolOut_fitsS_zero]
  · rw [exec_fitss, settle_contract_ok s hw hw, boolOut_fitsS_pos _ h0]
  · rw [exec_fitss, settle_contract_fails s (.inl hw)]

/-! ### GETU and GETS -/

theorem getU_bit (word : Word) (w l : Nat) {i : Nat} (hi : i < 64) :
    (bits64 (getU word w l)).getLsbD i = (decide (i < w) && word.getLsbD (l + i)) := by
  rw [bits64, BitVec.ofInt_natCast, BitVec.getLsbD_ofNat, decide_eq_true hi, Bool.true_and, getU, field_testBit]

/-- Bit by bit, a sign extension repeats the top bit. -/
theorem signExtend_bit {w : Nat} (x : BitVec w) {i : Nat} (hi : i < 64) :
    (x.signExtend 64).getLsbD i = x.getLsbD (min i (w - 1)) := by
  rw [BitVec.getLsbD_signExtend, decide_eq_true hi, Bool.true_and]
  split
  · next h => rw [min_eq_left (Nat.le_sub_one_of_lt h)]
  · next h => rw [min_eq_right (by omega), BitVec.msb_eq_getLsbD_last]

theorem getS_bit (word : Word) (w l : Nat) {i : Nat} (hi : i < 64) :
    (bits64 (getS word w l)).getLsbD i = (decide (0 < w) && word.getLsbD (l + min i (w - 1))) := by
  rcases Nat.eq_zero_or_pos w with rfl | h0
  · simp [getS, sint, bits64]
  · have hm : min i (w - 1) < w := by omega
    rw [getS, bits64_sint w _ (field_lt word w l) h0, signExtend_bit _ hi, BitVec.getLsbD_ofNat, field_testBit]
    simp only [hm, h0, decide_true, Bool.true_and]

/-- Settles O37: a field that lies in the word is extracted, and its bits are those of R179 and R180. -/
theorem getExtractsField : Obligations.GetExtractsField := by
  refine ⟨fun w l hw hl => ⟨decode_fields (by decide) hw hl, decode_fields (by decide) hw hl⟩,
    fun s w l => ⟨fun hw hl => ⟨?_, ?_⟩, fun h => ⟨?_, ?_⟩⟩⟩
  · exact ⟨_, (exec_getu w l s).trans (settle_contract_ok s hw hl _), fun _ => getU_bit s.a[0] w l⟩
  · exact ⟨_, (exec_gets w l s).trans (settle_contract_ok s hw hl _), fun _ => getS_bit s.a[0] w l⟩
  · rw [exec_getu, settle_contract_fails s h]
  · rw [exec_gets, settle_contract_fails s h]

/-! ### NEWU and NEWS -/

/-- Inserting an integer with the pattern `x` copies bits of `x` into the field and keeps every other bit (R181). -/
theorem insertField_bit_of_pattern {v : Int} {x : Word} (hx : bits64 v = x) (word : Word) {w : Nat} (hw : w ≤ 64)
    (l : Nat) : ∀ i < 64, (insertField word w l v).getLsbD i =
      if l ≤ i ∧ i < l + w then x.getLsbD (i - l) else word.getLsbD i := by
  subst hx
  exact fun i hi => insertField_bit word w l v i hi hw

theorem newU_of_fits {v : Int} {w : Nat} (h : fitsU v w = true) (k : Nat) (word : Word) (l : Nat) :
    newU k word w l v = .ok (insertField word w l v) := if_pos h

theorem newU_of_not_fits {v : Int} {w : Nat} (h : ¬ fitsU v w = true) (k : Nat) (word : Word) (l : Nat) :
    newU k word w l v = raiseFault .overflow k := if_neg h

theorem newS_of_fits {v : Int} {w : Nat} (h : fitsS v w = true) (k : Nat) (word : Word) (l : Nat) :
    newS k word w l v = .ok (insertField word w l v) := if_pos h

theorem newS_of_not_fits {v : Int} {w : Nat} (h : ¬ fitsS v w = true) (k : Nat) (word : Word) (l : Nat) :
    newS k word w l v = raiseFault .overflow k := if_neg h

/-- Settles O38: the contract, then the fit of the value decide the end; a value that fits is inserted by its pattern, which
is A1 in both readings. -/
theorem newReplacesField : Obligations.NewReplacesField := by
  refine ⟨fun w l hw hl => ⟨decode_fields (by decide) hw hl, decode_fields (by decide) hw hl⟩, fun s w l => ?_⟩
  refine ⟨fun hw hl hfit => ?_, fun hw hl hfit => ?_, fun hw hl hfit => ?_, fun hw hl hfit => ?_, fun h => ⟨?_, ?_⟩⟩
  · refine ⟨_, ?_, insertField_bit_of_pattern (bits64_toNat s.a[1]) s.a[0] hw l⟩
    rw [exec_newu, newU_of_fits ((fitsU_iff _ _).mpr hfit), settle_contract_ok s hw hl]
  · rw [exec_newu, newU_of_not_fits (mt (fitsU_iff _ _).mp hfit), settle_contract_raise s hw hl]
  · refine ⟨_, ?_, insertField_bit_of_pattern (bits64_toInt s.a[1]) s.a[0] hw l⟩
    rw [exec_news, newS_of_fits ((fitsS_toInt_iff _ _).mpr hfit), settle_contract_ok s hw hl]
  · rw [exec_news, newS_of_not_fits (mt (fitsS_toInt_iff _ _).mp hfit), settle_contract_raise s hw hl]
  · rw [exec_newu, settle_contract_fails s h]
  · rw [exec_news, settle_contract_fails s h]

end Sys2Proof.Proofs
end

section
/-!
The codeword commands (spec/45_codeword.md): CW_PACK inserts six fields from the top of a zero word down, so that every
insertion adds, and stops at the first that does not fit; CW_UNPACK reads the six fields back out of bits 31:0.
-/

namespace Sys2Proof.Proofs

open Sys2Proof.Machine Sys2Proof.Claims Sys2Proof.Laws

/-! ### The word that is packed -/

/-- Inserting a field into a word whose bits are 0 up to the field's top is adding it at its offset (R181). -/
theorem insertField_bits64 {n : Int} {w l : Nat} (hw : w + l ≤ 64) (hn : 2 ^ (l + w) ∣ n) (v : Int) :
    insertField (bits64 n) w l v = bits64 (n + v % 2 ^ w * 2 ^ l) := by
  have hlow : (bits64 n).toNat % 2 ^ (l + w) = 0 := by
    have hz : ((bits64 n).toNat : Int) = n % 2 ^ 64 := by
      rw [bits64, BitVec.toNat_ofInt]
      omega
    have hd : (2 : Int) ^ (l + w) ∣ n % 2 ^ 64 :=
      (EuclideanDomain.dvd_mod_iff (pow_dvd_pow 2 (by omega))).mpr hn
    refine Nat.mod_eq_zero_of_dvd ?_
    zify
    rwa [hz]
  have hv : ((v % 2 ^ w).toNat : Int) = v % 2 ^ w := Int.toNat_of_nonneg (Int.emod_nonneg _ (by positivity))
  rw [← bits64_toNat (insertField _ _ _ _), insertField_toNat _ _ _ _ hw hlow]
  push_cast
  rw [hv, bits64, BitVec.ofInt_add, BitVec.ofInt_natCast, BitVec.ofNat_toNat, BitVec.setWidth_eq, bits64, bits64,
    BitVec.ofInt_add]

/-- The six insertions of R192, in pack order. -/
def packedWord (f : Fields) : Word :=
  insertField (insertField (insertField (insertField (insertField (insertField 0 9 23 f.a) 5 18 f.b) 5 13 f.c) 5 8 f.d)
    4 4 f.pb) 4 0 f.pr

/-- Which fields `cw_pack` finds to fit, in pack order (R192). -/
def fieldsFit (f : Fields) : Vector Bool 6 :=
  #v[fitsU f.a 9, fitsS f.b 5, fitsS f.c 5, fitsS f.d 5, fitsU f.pb 4, fitsU f.pr 4]

theorem packedWord_eq_sum (f : Fields) :
    packedWord f = bits64 (f.a % 512 * 2 ^ 23 + f.b % 32 * 2 ^ 18 + f.c % 32 * 2 ^ 13 + f.d % 32 * 2 ^ 8
      + f.pb % 16 * 2 ^ 4 + f.pr % 16) := by
  rw [packedWord, show (0 : Word) = bits64 0 from rfl]
  iterate 6 rw [insertField_bits64 (by decide) (by omega)]
  norm_num

/-- In the word of fields that fit, the masks of the unsigned fields do nothing, and it is the codeword of R90. -/
theorem packedWord_eq_codeword {f : Fields} (h : ∀ k : Fin 6, (fieldsFit f)[k] = true) :
    packedWord f = codeword f.a f.b f.c f.d f.pb f.pr := by
  have ha : fitsU f.a 9 = true := h 0
  have hpb : fitsU f.pb 4 = true := h 4
  have hpr : fitsU f.pr 4 = true := h 5
  simp only [fitsU, Bool.and_eq_true, decide_eq_true_eq] at ha hpb hpr
  rw [packedWord_eq_sum, Int.emod_eq_of_lt (by omega : 0 ≤ f.a) (by omega),
    Int.emod_eq_of_lt (by omega : 0 ≤ f.pb) (by omega), Int.emod_eq_of_lt (by omega : 0 ≤ f.pr) (by omega)]
  rfl

/-! ### What `cw_pack` answers -/

/-- The first field in pack order that does not fit. -/
def firstUnfit (f : Fields) : Option (Fin 6) := Fin.find? fun k => !(fieldsFit f)[k]

/-- R192: the first field in pack order that does not fit raises with its index. -/
theorem cwPack_eq (f : Fields) :
    cwPack f = (firstUnfit f).elim (.ok (packedWord f)) fun k => raiseFault .overflow k := by
  unfold cwPack newU newS firstUnfit fieldsFit
  cases fitsU f.a 9
  · rfl
  cases fitsS f.b 5
  · rfl
  cases fitsS f.c 5
  · rfl
  cases fitsS f.d 5
  · rfl
  cases fitsU f.pb 4
  · rfl
  cases fitsU f.pr 4 <;> rfl

theorem cwPack_of_fits {f : Fields} (h : ∀ k : Fin 6, (fieldsFit f)[k] = true) :
    cwPack f = .ok (codeword f.a f.b f.c f.d f.pb f.pr) := by
  have hnone : firstUnfit f = none := Fin.find?_eq_none_iff.mpr fun k => by rw [h k, Bool.not_true]
  rw [cwPack_eq, hnone, Option.elim_none, packedWord_eq_codeword h]

theorem cwPack_of_first_unfit {f : Fields} {k : Fin 6} (hk : (fieldsFit f)[k] = false)
    (hj : ∀ j : Fin 6, j < k → (fieldsFit f)[j] = true) : cwPack f = raiseFault .overflow k := by
  have hsome : firstUnfit f = some k :=
    Fin.find?_eq_some_iff.mpr ⟨by rw [hk, Bool.not_false], fun j hlt => by rw [hj j hlt, Bool.not_true]⟩
  rw [cwPack_eq, hsome, Option.elim_some]

/-! ### CW_PACK -/

/-- The operands of CW_PACK as its fields (R190). -/
def operandFields (a : Slots) : Fields :=
  { a := a[0].toNat, b := a[1].toInt, c := a[2].toInt, d := a[3].toInt, pb := a[4].toNat, pr := a[5].toNat }

theorem exec_cwPack (s : State) :
    exec .cwPack s = settle (do let cw ← cwPack (operandFields s.a); return [cw]) s := rfl

theorem fitsU_natCast (n w : Nat) : fitsU n w = decide (n ≤ 2 ^ w - 1) := by
  rw [Bool.eq_iff_iff, fitsU_iff, decide_eq_true_iff, Nat.le_sub_one_iff_lt (Nat.two_pow_pos w)]

/-- The operands fit their fields in the ranges of R190. -/
theorem fieldsFit_operandFields (a : Slots) :
    fieldsFit (operandFields a) =
      (#v[a[0].toNat ≤ 511, -16 ≤ a[1].toInt && a[1].toInt ≤ 15, -16 ≤ a[2].toInt && a[2].toInt ≤ 15,
        -16 ≤ a[3].toInt && a[3].toInt ≤ 15, a[4].toNat ≤ 15, a[5].toNat ≤ 15] : Vector Bool 6) := by
  simp only [fieldsFit, operandFields, fitsU_natCast]
  rfl

/-- Settles O40: which operands fit decides between the codeword and the OVERFLOW of the first that does not. -/
theorem cwPackWritesCodeword : Obligations.CwPackWritesCodeword := by
  refine ⟨by decide, fun s => ?_⟩
  rw [← fieldsFit_operandFields]
  refine ⟨fun h => ?_, fun k hk hj => ?_⟩
  · rw [exec_cwPack, cwPack_of_fits h]
    exact settle_single _ s
  · rw [exec_cwPack, cwPack_of_first_unfit hk hj]
    exact settle_raiseFault _ _ s

/-! ### CW_UNPACK -/

/-- The signed reading of a field (R93) is that of R180. -/
theorem getS_eq_signedField (x : Word) {w : Nat} (hw : 0 < w) (l : Nat) : getS x w l = signedField x w l :=
  if_neg hw.ne'

theorem exec_cwUnpack (s : State) :
    exec .cwUnpack s = .next (afterSuccess s (slots6 (bits64 (getU s.a[0] 9 23)) (bits64 (getS s.a[0] 5 18))
      (bits64 (getS s.a[0] 5 13)) (bits64 (getS s.a[0] 5 8)) (bits64 (getU s.a[0] 4 4)) (bits64 (getU s.a[0] 4 0)))) :=
  settle_ok _ s

/-- The unsigned reading of a field (R179) in a result slot. -/
theorem bits64_getU (x : Word) (w l : Nat) : bits64 (getU x w l) = BitVec.ofNat 64 (x.toNat / 2 ^ l % 2 ^ w) :=
  BitVec.ofInt_natCast ..

/-- Settles O41: every extraction of R193 is of A0 alone, and is the field of R90 in the reading of R93. -/
theorem cwUnpackWritesFields : Obligations.CwUnpackWritesFields := by
  refine ⟨by decide, fun s => ?_⟩
  have h5 : 0 < 5 := by decide
  simp only [exec_cwUnpack, getS_eq_signedField _ h5, bits64_getU, pow_zero, Nat.div_one]
  rfl

end Sys2Proof.Proofs
end

section
/-!
NOP and ENC_BLOCK (spec/46_block_codec.md): the word of NOP is 0 alone (R200); the six quantized values of a block of pixels
always fit the codeword, so the packing that ends R203 never faults.
-/

namespace Sys2Proof.Proofs

open Sys2Proof.Machine Sys2Proof.Claims Sys2Proof.Laws

/-! ### NOP -/

/-- The first row of R81 is the only one of NOP, and both of its fields are 0 (R84). -/
theorem decodeFields_eq_nop_iff (opc w l : Nat) :
    decodeFields opc w l = .instr .nop ↔ opc = 0 ∧ w = 0 ∧ l = 0 := by
  unfold decodeFields
  split
  -- the last branch of the map: the OPC is in no row
  case h_24 => simp_all
  all_goals simp [bareRow, widthRow, ite_eq_iff]

theorem word_eq_zero_iff_fields (cmd : Word) :
    cmd = 0 ↔ field cmd 42 22 = 0 ∧ field cmd 8 0 = 0 ∧ field cmd 7 8 = 0 ∧ field cmd 7 15 = 0 := by
  have h := cmd.isLt
  rw [← BitVec.toNat_inj, show (0 : Word).toNat = 0 from rfl]
  unfold field
  omega

theorem decode_eq_nop_iff (cmd : Word) : decode cmd = .instr .nop ↔ cmd = 0 := by
  rw [word_eq_zero_iff_fields, ← decodeFields_eq_nop_iff]
  unfold decode
  split
  · next h => simp [h]
  · next h => simp [not_not.mp h]

theorem exec_nop (s : State) : exec .nop s = .next (afterSuccess s (slots1 0)) := settle_ok [] s

/-- Settles O22: the decoder gives NOP for the word 0 alone, and a write to CMD while FAULT = 1 is dropped. -/
theorem nopClearsResults : Obligations.NopClearsResults :=
  ⟨decode_eq_nop_iff, fun s => ⟨exec_nop s, fun hb hf => writeReg_cmd_faulted hb hf 0⟩⟩

/-! ### Quantized values fit their fields (R90) -/

theorem fitsU_quantA (x : ℚ) : fitsU (quantA x) 9 = true := by
  obtain ⟨hlo, hhi⟩ := quantA_range x
  simp only [fitsU, Bool.and_eq_true, decide_eq_true_eq]
  omega

theorem fitsS_quantBcd (x : ℚ) : fitsS (quantBcd x) 5 = true := by
  obtain ⟨hlo, hhi⟩ := quantBcd_range x
  rw [fitsS, if_neg (by decide), Bool.and_eq_true, decide_eq_true_eq, decide_eq_true_eq]
  omega

theorem fitsU_quantC (x : ℚ) : fitsU (quantC x) 4 = true := by
  obtain ⟨hlo, hhi⟩ := quantC_range x
  simp only [fitsU, Bool.and_eq_true, decide_eq_true_eq]
  omega

/-! ### ENC_BLOCK -/

theorem fieldsFit_encFields (p1 p2 p3 p4 : Pixel) (k : Fin 6) : (fieldsFit (encFields p1 p2 p3 p4))[k] = true := by
  fin_cases k
  · exact fitsU_quantA _
  · exact fitsS_quantBcd _
  · exact fitsS_quantBcd _
  · exact fitsS_quantBcd _
  · exact fitsU_quantC _
  · exact fitsU_quantC _

theorem encBlock_eq_codeword (p1 p2 p3 p4 : Pixel) :
    encBlock p1 p2 p3 p4 =
      let f := encFields p1 p2 p3 p4
      .ok (codeword f.a f.b f.c f.d f.pb f.pr) :=
  cwPack_of_fits (fieldsFit_encFields p1 p2 p3 p4)

theorem exec_encBlock (s : State) :
    exec .encBlock s =
      let f := encFields (pixIn s.a[0]) (pixIn s.a[1]) (pixIn s.a[2]) (pixIn s.a[3])
      .next (afterSuccess s (slots1 (codeword f.a f.b f.c f.d f.pb f.pr))) := by
  rw [exec, execEncBlock, encBlockResult, encBlock_eq_codeword]
  exact settle_single _ s

/-- `nearest_quantC` with the offset of R158 as a sum. -/
theorem nearest_quantC_add (x : ℚ) :
    nearest ((max (-(3 / 10)) (min (3 / 10) x) + 3 / 10) / (6 / 10) * 15) (quantC x) := by
  rw [← sub_neg_eq_add]
  exact nearest_quantC x

/-- Settles O43: the codeword is that of the block's fields, and each field is the nearest integer of its quantizer. -/
theorem encBlockWritesCodeword : Obligations.EncBlockWritesCodeword := by
  refine ⟨by decide, fun s => ⟨_, _, _, _, _, _, exec_encBlock s, ?_⟩⟩
  simp only [encFields, sample, dctForward, rgbToYPbPr_pixIn]
  exact ⟨nearest_quantA _, nearest_quantBcd _, nearest_quantBcd _, nearest_quantBcd _, nearest_quantC_add _,
    nearest_quantC_add _⟩

end Sys2Proof.Proofs
end

section
/-!
The framing of the compressed stream (section 1 of spec/47_host_framing.md): the decoder reads the magic line, the dimension
line of R212 with one optional newline, and the counted codewords; a written dimension line is one the decoder accepts.
-/

namespace Sys2Proof.Proofs

open Sys2Proof.Machine Sys2Proof.Claims Sys2Proof.Laws

/-! ### The bytes of a dimension line (R212) -/

theorem separator_iff (b : Byte) : separator b ↔ b.toNat = 0x20 ∨ 0x09 ≤ b.toNat ∧ b.toNat ≤ 0x0D := by
  simp [separator, ← BitVec.toNat_inj]
  omega

theorem isSpace_iff_separator (b : Byte) : isSpace b = true ↔ separator b := by
  rw [separator_iff]
  simp [isSpace]

theorem not_digit_of_separator {b : Byte} (h : separator b) : ¬ digit b := by
  rw [separator_iff] at h
  unfold digit
  omega

/-- A nonempty run of a kind at the front is read whole, and the reading stops where the kind does. -/
theorem readRun_of_run {kind : Byte → Bool} {p : Byte → Prop} (hkind : ∀ b, kind b = true ↔ p b) (e : FormatError)
    {run rest : List Byte} (hrun : runOf p run) (hrest : startsWithout p rest) :
    readRun kind e (run ++ rest) = .ok (run, rest) := by
  obtain ⟨hne, hall⟩ := hrun
  refine readRun_append kind e run rest hne (fun b hb => (hkind b).mpr (hall b hb)) fun b hb => ?_
  rw [← Bool.not_eq_true, hkind]
  exact hrest b hb

theorem startsWithout_append_of_run {p q : Byte → Prop} (hpq : ∀ b, p b → ¬ q b) {run : List Byte} (hrun : runOf p run)
    (rest : List Byte) : startsWithout q (run ++ rest) := by
  obtain ⟨hne, hall⟩ := hrun
  cases run with
  | nil => exact absurd rfl hne
  | cons c run =>
    rintro b ⟨⟩
    exact hpq c (hall c List.mem_cons_self)

theorem startsWithout_digit_newline (body : List Byte) : startsWithout digit (0x0A :: body) := by
  rintro b ⟨⟩
  exact not_digit_of_separator (by simp [separator])

/-! ### The body (R214, R216) -/

theorem bodyWords_cons (n : Nat) (b0 b1 b2 b3 : Byte) (rest : List Byte) :
    bodyWords (n + 1) (b0 :: b1 :: b2 :: b3 :: rest) = codewordOf b0 b1 b2 b3 :: bodyWords n rest := by
  simp [bodyWords, codewordOf, List.range_succ_eq_map, Nat.mul_add]

theorem readCodewords_of_le {n : Nat} {body : List Byte} (h : 4 * n ≤ body.length) :
    readCodewords n body = .ok (bodyWords n body) := by
  induction n generalizing body with
  | zero => rfl
  | succ n ih =>
    match body, h with
    | b0 :: b1 :: b2 :: b3 :: rest, h =>
      have hrest : 4 * n ≤ rest.length := by
        simp only [List.length_cons] at h
        omega
      rw [readCodewords, ih hrest, bodyWords_cons]

theorem dropNewline_of_head?_ne {body : List Byte} (h : body.head? ≠ some 0x0A) : dropNewline body = body := by
  cases body with
  | nil => rfl
  | cons b bs => exact if_neg fun hb => h (congrArg some hb)

/-! ### The decoder -/

theorem dimensionOk_of_even {n : Nat} (hpos : 0 < n) (heven : n % 2 = 0) : dimensionOk n = true := by
  simp [dimensionOk, heven, hpos.ne']

theorem parseStream_of_other_magic {bs : List Byte} (h : bs.take 33 ≠ magicBytes) : parseStream bs = .error .magic :=
  if_pos h

/-- What the decoder reads after a dimension line of R212 whose height ends where the digits do. -/
theorem parseStream_dimensionBytes {w h : Nat} {line rest : List Byte} (hline : dimensionBytes w h line)
    (hrest : startsWithout digit rest) :
    parseStream (magicBytes ++ line ++ rest) =
      if dimensionOk w && dimensionOk h then
        (readCodewords (w / 2 * (h / 2)) (dropNewline rest)).map fun cws => { width := w, height := h, codewords := cws }
      else .error .dimensions := by
  obtain ⟨ds, sep, hs, rfl, hds, hsep, hhs, hw, hh⟩ := hline
  obtain rfl : digitsValue ds = w := hw
  obtain rfl : digitsValue hs = h := hh
  have width := readRun_of_run isDigit_iff .widthDigits hds
    (startsWithout_append_of_run (fun _ => not_digit_of_separator) hsep (hs ++ rest))
  have gap := readRun_of_run isSpace_iff_separator .separator hsep
    (startsWithout_append_of_run (fun _ hd hb => not_digit_of_separator hb hd) hhs rest)
  have height := readRun_of_run isDigit_iff .heightDigits hhs hrest
  have magic : (magicBytes ++ (ds ++ sep ++ hs) ++ rest).take 33 = magicLine := rfl
  have tail : (magicBytes ++ (ds ++ sep ++ hs) ++ rest).drop 33 = ds ++ (sep ++ (hs ++ rest)) := by
    simp [magicBytes]
  rw [parseStream, magic, tail, width]
  simp only [ne_eq, not_true, if_false, bind, Except.bind, gap, height]
  cases dimensionOk (digitsValue ds) && dimensionOk (digitsValue hs) with
  | false => rfl
  | true => cases readCodewords (digitsValue ds / 2 * (digitsValue hs / 2)) (dropNewline rest) <;> rfl

/-- The body is what stands after the optional newline, and its counted codewords are read (R213, R214, R216). -/
theorem parseStream_of_body {w h : Nat} {line rest body : List Byte} (hline : dimensionBytes w h line) (hw : 0 < w)
    (hw2 : w % 2 = 0) (hh : 0 < h) (hh2 : h % 2 = 0) (hlen : 4 * (w / 2 * (h / 2)) ≤ body.length)
    (hrest : startsWithout digit rest) (hbody : dropNewline rest = body) :
    parseStream (magicBytes ++ line ++ rest) =
      .ok { width := w, height := h, codewords := bodyWords (w / 2 * (h / 2)) body } := by
  rw [parseStream_dimensionBytes hline hrest, dimensionOk_of_even hw hw2, dimensionOk_of_even hh hh2, hbody,
    readCodewords_of_le hlen]
  rfl

/-- Settles O56: a newline or a byte that is no digit ends the height, and the newline alone is dropped. -/
theorem bodyBeginsAfterOptionalNewline : Obligations.BodyBeginsAfterOptionalNewline := by
  intro w h line body hline hw hw2 hh hh2 hlen
  have read {rest : List Byte} := parseStream_of_body (rest := rest) hline hw hw2 hh hh2 hlen
  refine ⟨?_, fun hdigit hnewline => read hdigit (dropNewline_of_head?_ne hnewline)⟩
  rw [List.append_assoc]
  exact read (startsWithout_digit_newline body) rfl

/-! ### The written stream (R210, R211, R214) -/

theorem runOf_digit_decimal (n : Nat) : runOf digit (decimal n) :=
  ⟨decimal_ne_nil n, fun b hb => (isDigit_iff b).mp (decimal_isDigit n b hb)⟩

/-- The leading digit is the last of `Nat.digits`, which is not 0. -/
theorem decimal_head?_ne_zero {n : Nat} (h : 0 < n) : (decimal n).head? ≠ some 0x30 := by
  have hne : Nat.digits 10 n ≠ [] := Nat.digits_ne_nil_iff_ne_zero.mpr h.ne'
  have hlast : (Nat.digits 10 n).getLast hne ≠ 0 := Nat.getLast_digit_ne_zero 10 h.ne'
  have hlt : (Nat.digits 10 n).getLast hne < 10 := Nat.digits_lt_base (by decide) (List.getLast_mem hne)
  rw [decimal, if_neg h.ne', List.head?_map, List.head?_reverse, List.getLast?_eq_getLast_of_ne_nil hne]
  intro hzero
  have hcode : 0x30 + (Nat.digits 10 n).getLast hne = 0x30 :=
    (digitByte_toNat _ hlt).symm.trans (congrArg BitVec.toNat (Option.some.inj hzero))
  omega

theorem frameStream_eq (w h : Nat) (cws : List Word) :
    frameStream w h cws =
      magicBytes ++ decimal w ++ [0x20] ++ decimal h ++ [0x0A] ++ cws.flatMap codewordBytes := by
  have hmagic : magicLine = magicBytes := rfl
  simp only [frameStream, dimensionLine, hmagic, List.append_assoc]

theorem dimensionBytes_decimal (w h : Nat) : dimensionBytes w h (decimal w ++ [0x20] ++ decimal h) :=
  ⟨decimal w, [0x20], decimal h, rfl, runOf_digit_decimal w, by simp [runOf, separator], runOf_digit_decimal h,
    digitsValue_decimal w, digitsValue_decimal h⟩

/-- The four bytes of a codeword are the base-256 digits of its low 32 bits. -/
theorem codewordBytes_value (cw : Word) :
    ∃ b0 b1 b2 b3 : Byte, codewordBytes cw = [b0, b1, b2, b3] ∧
      b0.toNat * 2 ^ 24 + b1.toNat * 2 ^ 16 + b2.toNat * 2 ^ 8 + b3.toNat = cw.toNat % 2 ^ 32 := by
  refine ⟨_, _, _, _, rfl, ?_⟩
  simp only [field, BitVec.toNat_ofNat]
  omega

/-- Settles O49: the written line is one of R212, so the decoder reads the body after it from its first byte. -/
theorem writtenStreamForm : Obligations.WrittenStreamForm := by
  refine ⟨fun w h cws => ⟨decimal w, decimal h, frameStream_eq w h cws, runOf_digit_decimal w, runOf_digit_decimal h,
      digitsValue_decimal w, digitsValue_decimal h, decimal_head?_ne_zero, decimal_head?_ne_zero⟩,
    codewordBytes_value, fun bs hbs => ⟨_, parseStream_of_other_magic hbs⟩, fun w h body hw hw2 hh hh2 hlen => ?_⟩
  obtain ⟨read, -⟩ := bodyBeginsAfterOptionalNewline w h _ body (dimensionBytes_decimal w h) hw hw2 hh hh2 hlen
  rw [← read, frameStream_eq]
  simp only [List.flatMap_nil, List.append_nil, List.append_assoc]

end Sys2Proof.Proofs
end

section
/-! The launch premises of R284 (spec/70_reset_and_hazards.md). -/

namespace Sys2Proof.Proofs

open Sys2Proof.Machine Sys2Proof.Claims

/-! ### The operand slots of R88 -/

theorem operandCount_le (i : Instr) : operandCount i ≤ 16 := by
  cases i <;> simp only [operandCount] <;> decide

/-- Each row of R88 names the slots from A0 on, without a gap. -/
theorem operandSlots_eq_take (i : Instr) : operandSlots i = (List.finRange 16).take (operandCount i) := by
  cases i <;> rfl

theorem operandValues_length (i : Instr) (a : Slots) : (operandValues i a).length = operandCount i := by
  simp [operandValues, operandSlots_eq_take, operandCount_le i]

theorem operandValues_getElem? {i : Instr} {k : Fin 16} (hk : k.val < operandCount i) (a : Slots) :
    (operandValues i a)[k.val]? = some a[k] := by
  simp [operandValues, operandSlots_eq_take, hk]

/-! ### The premises, in terms of the registers -/

theorem idle_iff (s : State) : idle s = true ↔ s.status.busy = false := by simp [idle]

theorem noFault_iff (s : State) : noFault s = true ↔ s.status.fault = false := by simp [noFault]

theorem operandsHold_iff (i : Instr) (v : List Word) (s : State) :
    operandsHold i v s = true ↔
      v.length = operandCount i ∧ ∀ k : Fin 16, k.val < operandCount i → v[k.val]? = some s.a[k] := by
  rw [operandsHold, beq_iff_eq]
  refine ⟨fun h => ?_, fun ⟨hlen, hslots⟩ => List.ext_getElem? fun n => ?_⟩
  · subst h
    exact ⟨operandValues_length i s.a, fun k hk => operandValues_getElem? hk s.a⟩
  · by_cases hn : n < operandCount i
    · obtain ⟨k, rfl⟩ : ∃ k : Fin 16, k.val = n := ⟨⟨n, hn.trans_le (operandCount_le i)⟩, rfl⟩
      rw [operandValues_getElem? hn, hslots k hn]
    · have hle : operandCount i ≤ n := Nat.le_of_not_lt hn
      rw [List.getElem?_eq_none ((operandValues_length i s.a).trans_le hle),
        List.getElem?_eq_none (hlen.trans_le hle)]

/-- Settles O51: the slots a command reads are A0 up to the last its row names, and reset is idle, without a fault and with
every slot 0. -/
theorem launchPremises : Obligations.LaunchPremises :=
  ⟨fun s => ⟨idle_iff s, noFault_iff s⟩, operandsHold_iff, (idle_iff State.reset).mpr rfl,
    (noFault_iff State.reset).mpr rfl, slotsZero_getElem⟩

end Sys2Proof.Proofs
end

section
/-!
The command words (R80, R81, R96 of spec/30_encoding.md): encoding and decoding are inverse on the well-formed commands.
-/

namespace Sys2Proof.Proofs

open Sys2Proof.Machine Sys2Proof.Claims Sys2Proof.Laws

/-! ### The rows of the opcode map, read backwards -/

theorem bareRow_eq_instr_iff {i j : Instr} {w l : Nat} : bareRow i w l = .instr j ↔ w = 0 ∧ l = 0 ∧ i = j := by
  simp [bareRow, ite_eq_iff]

theorem widthRow_eq_instr_iff {i : Nat → Instr} {j : Instr} {w l : Nat} :
    widthRow i w l = .instr j ↔ l = 0 ∧ i w = j := by
  simp [widthRow, ite_eq_iff]

/-- The map of R81 gives a command exactly for its OPC and its two fields. -/
theorem decodeFields_eq_instr_iff (opc w l : Nat) (i : Instr) :
    decodeFields opc w l = .instr i ↔ i.opc = opc ∧ i.widthField = w ∧ i.lsbField = l := by
  constructor
  · intro h
    unfold decodeFields at h
    split at h
    -- the last branch of the map: the OPC is in no row
    case h_24 => cases h
    case h_16 | h_17 | h_18 | h_19 =>
      cases h
      exact ⟨rfl, rfl, rfl⟩
    case h_14 | h_15 =>
      obtain ⟨rfl, rfl⟩ := widthRow_eq_instr_iff.mp h
      exact ⟨rfl, rfl, rfl⟩
    all_goals
      obtain ⟨rfl, rfl, rfl⟩ := bareRow_eq_instr_iff.mp h
      exact ⟨rfl, rfl, rfl⟩
  · rintro ⟨rfl, rfl, rfl⟩
    cases i <;> rfl

/-! ### Words and commands -/

theorem opc_lt (i : Instr) : i.opc < 256 := by
  cases i <;> simp only [Instr.opc] <;> decide

/-- A command is well formed exactly if both of its fields fit 7 bits (R80). -/
theorem wellFormed_iff (i : Instr) : i.wellFormed = true ↔ i.widthField < 128 ∧ i.lsbField < 128 := by
  cases i <;> simp [Instr.wellFormed, fieldOk, Instr.widthField, Instr.lsbField]

theorem decode_eq_instr_iff (cmd : Word) (i : Instr) :
    decode cmd = .instr i ↔
      field cmd 42 22 = 0 ∧ i.opc = field cmd 8 0 ∧ i.widthField = field cmd 7 8 ∧ i.lsbField = field cmd 7 15 := by
  rw [← decodeFields_eq_instr_iff, decode]
  split
  · next h => simp [h]
  · next h => simp [not_not.mp h]

/-- A word is put together again from the fields of R80. -/
theorem word_eq_of_fields {cmd : Word} (h : field cmd 42 22 = 0) :
    BitVec.ofNat 64 (field cmd 7 15 * 2 ^ 15 + field cmd 7 8 * 2 ^ 8 + field cmd 8 0) = cmd := by
  have hlt := cmd.isLt
  apply BitVec.eq_of_toNat_eq
  rw [BitVec.toNat_ofNat]
  unfold field at *
  omega

/-- Settles O19: the decoder takes the word apart into the fields it was made of, and they are those of one row. -/
theorem decodeOfEncode : Obligations.DecodeOfEncode := by
  intro i hi
  obtain ⟨hw, hl⟩ := (wellFormed_iff i).mp hi
  rw [encode, decode_fields (opc_lt i) hw hl]
  exact (decodeFields_eq_instr_iff _ _ _ i).mpr ⟨rfl, rfl, rfl⟩

/-- Settles O20: a word that decodes has the command's fields in it and nothing else. -/
theorem encodeOfDecode : Obligations.EncodeOfDecode := by
  intro cmd i h
  obtain ⟨hres, hopc, hw, hl⟩ := (decode_eq_instr_iff cmd i).mp h
  refine ⟨(wellFormed_iff i).mpr ⟨?_, ?_⟩, ?_⟩
  · exact hw ▸ field_lt cmd 7 8
  · exact hl ▸ field_lt cmd 7 15
  · rw [encode, hopc, hw, hl, word_eq_of_fields hres]

/-- Settles O21: each word is that of its command (R96), and a well-formed command is read back from its word. -/
theorem sampleWordsDecode : Obligations.SampleWordsDecode :=
  ⟨decodeOfEncode .nop rfl, decodeOfEncode .cscInv rfl, decodeOfEncode .blkFwd rfl, decodeOfEncode .dctInv rfl,
    decodeOfEncode .qbcd rfl, decodeOfEncode (.getu 9 23) rfl, decodeOfEncode (.news 5 18) rfl,
    decodeOfEncode .cwUnpack rfl, decodeOfEncode .encBlock rfl⟩

end Sys2Proof.Proofs
end

section
/-!
Reading back a written stream, and the streams the decoder refuses (section 1 of spec/47_host_framing.md).
-/

namespace Sys2Proof.Proofs

open Sys2Proof.Machine Sys2Proof.Claims Sys2Proof.Laws

/-! ### The round trip -/

/-- The body of codewords below 2^32 is read as just these, whatever follows. -/
theorem bodyWords_flatMap_codewordBytes {cws : List Word} (h : ∀ cw ∈ cws, cw.toNat < 2 ^ 32) (extra : List Byte) :
    bodyWords cws.length (cws.flatMap codewordBytes ++ extra) = cws := by
  induction cws with
  | nil => rfl
  | cons cw cws ih =>
    obtain ⟨hcw, hcws⟩ := List.forall_mem_cons.mp h
    have hbytes : (cw :: cws).flatMap codewordBytes ++ extra =
        BitVec.ofNat 8 (field cw 8 24) :: BitVec.ofNat 8 (field cw 8 16) :: BitVec.ofNat 8 (field cw 8 8) ::
          BitVec.ofNat 8 (field cw 8 0) :: (cws.flatMap codewordBytes ++ extra) := rfl
    rw [hbytes, List.length_cons, bodyWords_cons, codewordOf_bytes cw hcw, ih hcws]

theorem flatMap_codewordBytes_length (cws : List Word) : (cws.flatMap codewordBytes).length = 4 * cws.length := by
  simp [List.length_flatMap, codewordBytes_length, mul_comm]

theorem frameStream_append (w h : Nat) (cws : List Word) (extra : List Byte) :
    frameStream w h cws ++ extra = frameStream w h [] ++ (cws.flatMap codewordBytes ++ extra) := by
  simp [frameStream]

/-- Settles O47: the body after a written header is read as its counted codewords (R214), which are those written. -/
theorem framingRoundTrip : Obligations.FramingRoundTrip := by
  intro w h cws extra hw hw2 hh hh2 hlen hcws
  obtain ⟨-, -, -, readBody⟩ := writtenStreamForm
  have hbody : 4 * (w / 2 * (h / 2)) ≤ (cws.flatMap codewordBytes ++ extra).length := by
    rw [List.length_append, flatMap_codewordBytes_length, hlen]
    omega
  rw [frameStream_append, readBody w h _ hw hw2 hh hh2 hbody, ← hlen, bodyWords_flatMap_codewordBytes hcws]

/-! ### Streams that are refused -/

/-- Where a run must begin and its kind of byte does not stand, the reading fails (R212). -/
theorem readRun_of_startsWithout {kind : Byte → Bool} {p : Byte → Prop} (hkind : ∀ b, kind b = true ↔ p b)
    (e : FormatError) {rest : List Byte} (hrest : startsWithout p rest) : readRun kind e rest = .error e := by
  refine if_pos ?_
  cases rest with
  | nil => rfl
  | cons b bs =>
    have hb : ¬ kind b = true := mt (hkind b).mp (hrest b rfl)
    rw [List.takeWhile_cons_of_neg hb, List.isEmpty_nil]

theorem dimensionOk_eq_false {n : Nat} (h : n = 0 ∨ n % 2 = 1) : dimensionOk n = false := by
  rcases h with rfl | h
  · rfl
  · simp [dimensionOk, h]

theorem readCodewords_of_short {n : Nat} {body : List Byte} (h : body.length < 4 * n) :
    readCodewords n body = .error .prematureEnd := by
  induction n generalizing body with
  | zero => omega
  | succ n ih =>
    match body, h with
    | [], _ | [_], _ | [_, _], _ | [_, _, _], _ => rfl
    | b0 :: b1 :: b2 :: b3 :: rest, h =>
      have hrest : rest.length < 4 * n := by
        simp only [List.length_cons] at h
        omega
      rw [readCodewords, ih hrest]

/-- After the magic line the decoder reads the width (R210, R212). -/
theorem parseStream_of_width_error {rest : List Byte} {e : FormatError}
    (h : readRun isDigit .widthDigits rest = .error e) : parseStream (magicBytes ++ rest) = .error e := by
  have magic : (magicBytes ++ rest).take 33 = magicLine := rfl
  have tail : (magicBytes ++ rest).drop 33 = rest := rfl
  rw [parseStream, magic, tail, h]
  rfl

theorem parseStream_of_separator_error {ds rest : List Byte} {e : FormatError}
    (hds : readRun isDigit .widthDigits (ds ++ rest) = .ok (ds, rest))
    (h : readRun isSpace .separator rest = .error e) : parseStream (magicBytes ++ ds ++ rest) = .error e := by
  have magic : (magicBytes ++ ds ++ rest).take 33 = magicLine := rfl
  have tail : (magicBytes ++ ds ++ rest).drop 33 = ds ++ rest := rfl
  rw [parseStream, magic, tail, hds]
  simp only [ne_eq, not_true, if_false, bind, Except.bind, h]

theorem parseStream_of_height_error {ds sep rest : List Byte} {e : FormatError}
    (hds : readRun isDigit .widthDigits (ds ++ (sep ++ rest)) = .ok (ds, sep ++ rest))
    (hsep : readRun isSpace .separator (sep ++ rest) = .ok (sep, rest))
    (h : readRun isDigit .heightDigits rest = .error e) :
    parseStream (magicBytes ++ ds ++ sep ++ rest) = .error e := by
  have magic : (magicBytes ++ ds ++ sep ++ rest).take 33 = magicLine := rfl
  have tail : (magicBytes ++ ds ++ sep ++ rest).drop 33 = ds ++ (sep ++ rest) := by
    rw [List.append_assoc, List.append_assoc]; rfl
  rw [parseStream, magic, tail, hds]
  simp only [ne_eq, not_true, if_false, bind, Except.bind, hsep, h]

theorem parseStream_of_bad_dimensions {w h : Nat} {line rest : List Byte} (hline : dimensionBytes w h line)
    (hrest : startsWithout digit rest) (hbad : w = 0 ∨ w % 2 = 1 ∨ h = 0 ∨ h % 2 = 1) :
    parseStream (magicBytes ++ line ++ rest) = .error .dimensions := by
  have hok : (dimensionOk w && dimensionOk h) = false := by
    rcases or_assoc.mpr hbad with hw | hh
    · rw [dimensionOk_eq_false hw, Bool.false_and]
    · rw [dimensionOk_eq_false hh, Bool.and_false]
  rw [parseStream_dimensionBytes hline hrest, hok]
  rfl

theorem parseStream_of_short_body {w h : Nat} {line rest : List Byte} (hline : dimensionBytes w h line) (hw : 0 < w)
    (hw2 : w % 2 = 0) (hh : 0 < h) (hh2 : h % 2 = 0) (hrest : startsWithout digit rest)
    (hlen : (dropNewline rest).length < 4 * (w / 2 * (h / 2))) :
    parseStream (magicBytes ++ line ++ rest) = .error .prematureEnd := by
  rw [parseStream_dimensionBytes hline hrest, dimensionOk_of_even hw hw2, dimensionOk_of_even hh hh2,
    readCodewords_of_short hlen]
  rfl

/-- Settles O48: the reading stops at the first part that is missing, in the order of the line; a whole line leaves the
dimensions and then the length of the body. -/
theorem badStreamsAreFormatErrors : Obligations.BadStreamsAreFormatErrors := by
  refine ⟨fun _ => parseStream_of_other_magic, fun rest hrest => ?_, fun ds rest hds hdigit hsep => ?_,
    fun ds sep rest hds hsep hspace hdigit => ?_,
    fun w h line rest hline hrest => parseStream_of_bad_dimensions hline hrest,
    fun w h line body hline hw hw2 hh hh2 hlen => ⟨?_, fun hdigit hnewline => ?_⟩⟩
  · exact parseStream_of_width_error (readRun_of_startsWithout isDigit_iff _ hrest)
  · exact parseStream_of_separator_error (readRun_of_run isDigit_iff _ hds hdigit)
      (readRun_of_startsWithout isSpace_iff_separator _ hsep)
  · exact parseStream_of_height_error
      (readRun_of_run isDigit_iff _ hds (startsWithout_append_of_run (fun _ => not_digit_of_separator) hsep rest))
      (readRun_of_run isSpace_iff_separator _ hsep hspace) (readRun_of_startsWithout isDigit_iff _ hdigit)
  · rw [List.append_assoc]
    exact parseStream_of_short_body hline hw hw2 hh hh2 (startsWithout_digit_newline body) hlen
  · refine parseStream_of_short_body hline hw hw2 hh hh2 hdigit ?_
    rwa [dropNewline_of_head?_ne hnewline]

end Sys2Proof.Proofs
end

section
/-!
The host's compress and decompress runs (sections 2 and 3 of spec/47_host_framing.md): no block of a raster faults, so
the stream is that of the blocks' codewords, and the decoded raster has the decoded blocks in their places.
-/

namespace Sys2Proof.Proofs

open Sys2Proof.Machine Sys2Proof.Claims Sys2Proof.Laws

/-! ### The codewords of a raster -/

/-- The codeword of a block of four pixels, the value of `encBlock`. -/
def blockCodeword (p1 p2 p3 p4 : Pixel) : Word :=
  let f := encFields p1 p2 p3 p4
  codeword f.a f.b f.c f.d f.pb f.pr

theorem encBlock_eq_blockCodeword (p1 p2 p3 p4 : Pixel) : encBlock p1 p2 p3 p4 = .ok (blockCodeword p1 p2 p3 p4) :=
  encBlock_eq_codeword p1 p2 p3 p4

theorem codeword_lt {a b c d pb pr : Int} (ha : 0 ≤ a ∧ a ≤ 511) (hpb : 0 ≤ pb ∧ pb ≤ 15) (hpr : 0 ≤ pr ∧ pr ≤ 15) :
    (codeword a b c d pb pr).toNat < 2 ^ 32 := by
  rw [codeword, BitVec.toNat_ofInt]
  omega

theorem blockCodeword_lt (p1 p2 p3 p4 : Pixel) : (blockCodeword p1 p2 p3 p4).toNat < 2 ^ 32 :=
  codeword_lt (quantA_range _) (quantC_range _) (quantC_range _)

/-- The codeword of block (i, j) of a raster (R230). -/
def codewordAt (img : Raster) (i j : Nat) : Word :=
  blockCodeword (img.pixelAt (2 * j) (2 * i)) (img.pixelAt (2 * j + 1) (2 * i)) (img.pixelAt (2 * j) (2 * i + 1))
    (img.pixelAt (2 * j + 1) (2 * i + 1))

/-- The codewords of the `n` blocks from number `k` on, in row-major block order (R225). -/
def codewordsFrom (img : Raster) (n k : Nat) : List Word :=
  (List.range' k n).map fun m => codewordAt img (m / (img.width / 2)) (m % (img.width / 2))

theorem encBlocksFrom_eq (img : Raster) (n k : Nat) : encBlocksFrom img n k = .ok (codewordsFrom img n k) := by
  induction n generalizing k with
  | zero => rfl
  | succ n ih =>
    rw [encBlocksFrom, encBlockAt, encBlock_eq_blockCodeword, ih (k + 1)]
    rfl

theorem codewordsFrom_length (img : Raster) (n k : Nat) : (codewordsFrom img n k).length = n := by
  simp [codewordsFrom]

theorem codewordsFrom_lt (img : Raster) (n k : Nat) : ∀ cw ∈ codewordsFrom img n k, cw.toNat < 2 ^ 32 := by
  intro cw hcw
  obtain ⟨m, -, rfl⟩ := List.mem_map.mp hcw
  exact blockCodeword_lt ..

theorem blockNumber_lt {w h i j : Nat} (hi : i < h) (hj : j < w) : i * w + j < w * h := by
  calc i * w + j < i * w + w := by omega
    _ = (i + 1) * w := by ring
    _ ≤ h * w := Nat.mul_le_mul_right w hi
    _ = w * h := Nat.mul_comm h w

/-- Codeword number i·(w/2) + j is that of block (i, j) (R230). -/
theorem codewordsFrom_getElem? (img : Raster) {h i j : Nat} (hi : i < h) (hj : j < img.width / 2) :
    (codewordsFrom img (img.width / 2 * h) 0)[i * (img.width / 2) + j]? = some (codewordAt img i j) := by
  have hpos : 0 < img.width / 2 := Nat.zero_lt_of_lt hj
  have hrow : (i * (img.width / 2) + j) / (img.width / 2) = i := by
    rw [mul_comm, Nat.mul_add_div hpos, Nat.div_eq_of_lt hj, add_zero]
  have hcol : (i * (img.width / 2) + j) % (img.width / 2) = j := by
    rw [mul_comm, Nat.mul_add_mod, Nat.mod_eq_of_lt hj]
  rw [codewordsFrom, List.getElem?_map, List.getElem?_range' (blockNumber_lt hi hj)]
  simp only [one_mul, zero_add, Option.map_some, hrow, hcol]

/-! ### The decoded raster -/

theorem grid_length (w h : Nat) (f : Nat → Nat → Pixel) :
    ((List.range h).flatMap fun y => (List.range w).map (f y)).length = w * h := by
  simp [List.length_flatMap, mul_comm]

/-- Element y·w + x of a row-major grid stands at column x and row y (R65). -/
theorem grid_getD {w h x y : Nat} (hx : x < w) (hy : y < h) (f : Nat → Nat → Pixel) (p : Pixel) :
    ((List.range h).flatMap fun y => (List.range w).map (f y)).getD (y * w + x) p = f y x := by
  induction h with
  | zero => omega
  | succ h ih =>
    rw [List.range_succ, List.flatMap_append, List.getD_eq_getElem?_getD]
    rcases Nat.lt_succ_iff_lt_or_eq.mp hy with hlt | rfl
    · have hin : y * w + x < w * h := blockNumber_lt hlt hx
      rw [List.getElem?_append_left (by rwa [grid_length]), ← List.getD_eq_getElem?_getD, ih hlt]
    · rw [List.getElem?_append_right (by rw [grid_length, mul_comm]; omega), grid_length, mul_comm w,
        Nat.add_sub_cancel_left]
      simp [hx]

theorem decodedRaster_length (st : Stream) : (decodedRaster st).pixels.length = st.width * st.height :=
  grid_length st.width st.height fun y x => decodedPixel st x y

theorem pixelOf_decodedRaster {st : Stream} {x y : Nat} (hx : x < st.width) (hy : y < st.height) :
    pixelOf (decodedRaster st) x y = decodedPixel st x y :=
  grid_getD hx hy (fun y x => decodedPixel st x y) _

/-- The four pixels at the place of block (i, j) are those of its codeword (R231). -/
theorem decBlock_eq_pixels {st : Stream} {i j : Nat} {cw : Word}
    (hcw : st.codewords[i * (st.width / 2) + j]? = some cw) (hi : i < st.height / 2) (hj : j < st.width / 2) :
    decBlock cw = (pixelOf (decodedRaster st) (2 * j) (2 * i), pixelOf (decodedRaster st) (2 * j + 1) (2 * i),
      pixelOf (decodedRaster st) (2 * j) (2 * i + 1), pixelOf (decodedRaster st) (2 * j + 1) (2 * i + 1)) := by
  have half (n : Nat) : (2 * n + 1) / 2 = n := by omega
  have odd (n : Nat) : (2 * n + 1) % 2 = 1 := by omega
  rw [pixelOf_decodedRaster (by omega) (by omega), pixelOf_decodedRaster (by omega) (by omega),
    pixelOf_decodedRaster (by omega) (by omega), pixelOf_decodedRaster (by omega) (by omega)]
  simp [decodedPixel, subPixel, half, odd, hcw]

/-! ### The runs -/

theorem dimensionOk_iff (n : Nat) : dimensionOk n = true ↔ 0 < n ∧ n % 2 = 0 := by
  simp [dimensionOk, Nat.pos_iff_ne_zero]

theorem wellFormed_raster_iff (img : Raster) :
    img.wellFormed = true ↔
      (0 < img.width ∧ img.width % 2 = 0) ∧ (0 < img.height ∧ img.height % 2 = 0) ∧
        img.pixels.length = img.width * img.height := by
  simp [Raster.wellFormed, dimensionOk_iff, and_assoc]

theorem compressRun_eq {canAllocate : Nat → Bool} {img : Raster} (hwf : img.wellFormed = true)
    (hcan : ∀ n, canAllocate n = true) :
    compressRun canAllocate img =
      .ok (frameStream img.width img.height (codewordsFrom img (img.width / 2 * (img.height / 2)) 0)) := by
  simp [compressRun, hwf, hcan, encBlocksFrom_eq]

theorem decompressRun_eq {canAllocate : Nat → Bool} {bs : List Byte} {st : Stream} (hst : parseStream bs = .ok st)
    (hcan : ∀ n, canAllocate n = true) : decompressRun canAllocate bs = .ok (decodedRaster st) := by
  simp [decompressRun, hst, hcan]

/-- Settles O50: the stream is read back whole, and the places of a block in both rasters are the same. -/
theorem decompressOfCompress : Obligations.DecompressOfCompress := by
  intro img canAllocate hwf hcan
  obtain ⟨⟨hw, hw2⟩, ⟨hh, hh2⟩, -⟩ := (wellFormed_raster_iff img).mp hwf
  have hlen := codewordsFrom_length img (img.width / 2 * (img.height / 2)) 0
  have hread := framingRoundTrip img.width img.height _ [] hw hw2 hh hh2 hlen (codewordsFrom_lt img _ 0)
  rw [List.append_nil] at hread
  refine ⟨_, _, compressRun_eq hwf hcan, hlen, decompressRun_eq hread hcan, rfl, rfl, decodedRaster_length _,
    fun i j hi hj => ?_⟩
  have hcw := codewordsFrom_getElem? img hi hj
  exact ⟨_, hcw, encBlock_eq_blockCodeword .., decBlock_eq_pixels hcw hi hj⟩

end Sys2Proof.Proofs
end

section
/-!
The dequantizers and the integer forms of section 1 of spec/43_quantizer.md: a field times a step of the grid is a
numerator, rounding a fraction is an integer division, and it moves a value by half a step at most.
-/

namespace Sys2Proof.Proofs

open Sys2Proof.Machine Sys2Proof.Claims Sys2Proof.Laws

/-! ### DQA, DQBCD and DQC -/

theorem settle_numerator {v : ℚ} {n : Int} (hv : v * 521220000000 = n) (hlo : -(2 ^ 63) ≤ n) (hhi : n ≤ 2 ^ 63 - 1)
    (s : State) : settle (qvOutAll 0 [v]) s = .next (afterSuccess s (slots1 (bits64 n))) := by
  rw [qvOutAll_ok (qvOut_ok hv hlo hhi) rfl, settle_single]

theorem field_zero (x : Word) (n : Nat) : field x n 0 = x.toNat % 2 ^ n := by
  rw [field, pow_zero, Nat.div_one]

theorem signedField_range (x : Word) {n : Nat} (hn : 0 < n) (lo : Nat) :
    -(2 ^ (n - 1)) ≤ signedField x n lo ∧ signedField x n lo ≤ 2 ^ (n - 1) - 1 := by
  rw [← getS_eq_signedField x hn lo]
  exact sint_range n _ hn (field_lt x n lo)

theorem dequantA_mul_qden (q : Int) : dequantA q * 521220000000 = ((q * 1020000000 : Int) : ℚ) := by
  rw [dequantA]
  push_cast
  ring

theorem dequantBcd_mul_qden (q : Int) : dequantBcd q * 521220000000 = ((q * 10424400000 : Int) : ℚ) := by
  rw [dequantBcd]
  push_cast
  ring

theorem dequantC_mul_qden (q : Int) :
    dequantC q * 521220000000 = ((-156366000000 + 20848800000 * q : Int) : ℚ) := by
  rw [dequantC]
  push_cast
  ring

theorem exec_dqa (s : State) :
    exec .dqa s = .next (afterSuccess s (slots1 (bits64 ((s.a[0].toNat % 512 : Nat) * 1020000000)))) := by
  rw [exec, execDqa, field_zero]
  exact settle_numerator (dequantA_mul_qden _) (by omega) (by omega) s

theorem exec_dqbcd (s : State) :
    exec .dqbcd s = .next (afterSuccess s (slots1 (bits64 (signedField s.a[0] 5 0 * 10424400000)))) := by
  obtain ⟨hlo, hhi⟩ := signedField_range s.a[0] (show 0 < 5 by decide) 0
  rw [exec, execDqbcd, ← getS, getS_eq_signedField _ (by decide),
    settle_numerator (dequantBcd_mul_qden _) (by omega) (by omega)]

theorem exec_dqc (s : State) :
    exec .dqc s = .next (afterSuccess s (slots1
      (bits64 ((-156366000000 : Int) + (20848800000 : Int) * ((s.a[0].toNat % 16 : Nat) : Int))))) := by
  rw [exec, execDqc, field_zero]
  exact settle_numerator (dequantC_mul_qden _) (by omega) (by omega) s

/-- A numerator that a value of the grid has is that of its slot. -/
theorem qv_bits64_eq {v : ℚ} {n : Int} (hv : v * 521220000000 = n) (hlo : -(2 ^ 63) ≤ n) (hhi : n ≤ 2 ^ 63 - 1) :
    qv (bits64 n) = v := by
  rw [qv_bits64 hlo hhi, ← hv, mul_div_cancel_right₀ _ (by norm_num)]

theorem qv_dequantA {q : Int} (hlo : 0 ≤ q) (hhi : q ≤ 511) : qv (bits64 (q * 1020000000)) = dequantA q :=
  qv_bits64_eq (dequantA_mul_qden q) (by omega) (by omega)

theorem qv_dequantBcd {q : Int} (hlo : -16 ≤ q) (hhi : q ≤ 15) : qv (bits64 (q * 10424400000)) = dequantBcd q :=
  qv_bits64_eq (dequantBcd_mul_qden q) (by omega) (by omega)

theorem qv_dequantC {q : Int} (hlo : 0 ≤ q) (hhi : q ≤ 15) :
    qv (bits64 (-156366000000 + 20848800000 * q)) = dequantC q :=
  qv_bits64_eq (dequantC_mul_qden q) (by omega) (by omega)

/-- Settles O33: each command writes the numerator of its field's value, which is on the grid. -/
theorem dequantizersWriteExactValue : Obligations.DequantizersWriteExactValue := by
  refine ⟨by decide, by decide, by decide, fun s => ⟨⟨_, exec_dqa s, ?_⟩, ⟨_, exec_dqbcd s, ?_⟩, ⟨_, exec_dqc s, ?_⟩⟩⟩
  · rw [qv_dequantA (by omega) (by omega), dequantA, Int.cast_natCast]
  · obtain ⟨hlo, hhi⟩ := signedField_range s.a[0] (show 0 < 5 by decide) 0
    rw [qv_dequantBcd hlo hhi, dequantBcd]
  · rw [qv_dequantC (by omega) (by omega), dequantC, Int.cast_natCast, neg_div]

/-! ### Integer forms (R162) -/

/-- Rounding a fraction is an integer division of twice its numerator (R9). -/
theorem roundQ_div {m d : Int} (hd : 0 < d) :
    roundQ ((m : ℚ) / d) = if 0 ≤ m then (2 * m + d) / (2 * d) else -((2 * (-m) + d) / (2 * d)) := by
  have hdq : (0 : ℚ) < d := by exact_mod_cast hd
  have half (k : Int) : (k : ℚ) / d + 1 / 2 = ((2 * k + d : Int) : ℚ) / ((2 * d : Int) : ℚ) := by
    push_cast
    field_simp
  have sign : 0 ≤ (m : ℚ) / d ↔ 0 ≤ m := by rw [le_div_iff₀ hdq, zero_mul, Int.cast_nonneg_iff]
  have neg : -((m : ℚ) / d) = ((-m : Int) : ℚ) / d := by rw [Int.cast_neg, neg_div]
  simp only [roundQ, sign, neg, half, floor_div _ _ (show 0 < 2 * d by omega)]

/-- Clamping a fraction is clamping its numerator. -/
theorem clampQ_div {n lo hi d : Int} (hd : 0 < d) (h : lo ≤ hi) :
    clampQ ((n : ℚ) / d) (lo / d) (hi / d) = ((max lo (min hi n) : Int) : ℚ) / d := by
  have hdq : (0 : ℚ) ≤ d := by exact_mod_cast hd.le
  rw [clampQ_eq (div_le_div_of_nonneg_right (by exact_mod_cast h) hdq), min_div_div_right hdq, max_div_div_right hdq]
  push_cast
  rfl

theorem clampQ_qv_unit (x : Word) :
    clampQ (qv x) 0 1 = ((max 0 (min 521220000000 x.toInt) : Int) : ℚ) / (521220000000 : Int) := by
  rw [← clampQ_div (by decide) (by decide), qv]
  norm_num

theorem clampQ_qv_threeTenths (x : Word) :
    clampQ (qv x) (-3 / 10) (3 / 10) =
      ((max (-156366000000) (min 156366000000 x.toInt) : Int) : ℚ) / (521220000000 : Int) := by
  rw [← clampQ_div (by decide) (by decide), qv]
  norm_num

theorem quantA_qv (x : Word) :
    quantA (qv x) = (1022 * max 0 (min 521220000000 x.toInt) + 521220000000) / (2 * 521220000000) := by
  have hmul : 511 * clampQ (qv x) 0 1 =
      ((511 * max 0 (min 521220000000 x.toInt) : Int) : ℚ) / (521220000000 : Int) := by
    rw [clampQ_qv_unit]
    push_cast
    ring
  rw [quantA, hmul, roundQ_div (by decide), if_pos (by omega)]
  congr 2
  ring

theorem quantBcd_qv (x : Word) :
    quantBcd (qv x) =
      let m := 50 * max (-156366000000) (min 156366000000 x.toInt)
      if 0 ≤ m then (2 * m + 521220000000) / (2 * 521220000000)
        else -((2 * (-m) + 521220000000) / (2 * 521220000000)) := by
  have hmul : 50 * clampQ (qv x) (-3 / 10) (3 / 10) =
      ((50 * max (-156366000000) (min 156366000000 x.toInt) : Int) : ℚ) / (521220000000 : Int) := by
    rw [clampQ_qv_threeTenths]
    push_cast
    ring
  rw [quantBcd, hmul, roundQ_div (by decide)]

theorem quantC_qv (x : Word) :
    quantC (qv x) =
      (50 * max (-156366000000) (min 156366000000 x.toInt) + 16 * 521220000000) / (2 * 521220000000) := by
  have hmul : (clampQ (qv x) (-3 / 10) (3 / 10) - (-3 / 10)) / (6 / 10) * 15 =
      ((50 * max (-156366000000) (min 156366000000 x.toInt) + 15 * 521220000000 : Int) : ℚ) /
        (2 * 521220000000 : Int) := by
    rw [clampQ_qv_threeTenths]
    push_cast
    ring
  rw [quantC_eq_roundQ, hmul, roundQ_div (by decide), if_pos (by omega)]
  omega

/-- Settles O34: each quantizer rounds a fraction over QDEN, and each dequantizer writes a numerator. -/
theorem quantizerIntegerForms : Obligations.QuantizerIntegerForms := by
  refine fun s => ⟨?_, ?_, ?_, exec_dqa s, exec_dqbcd s, exec_dqc s⟩
  · rw [exec_qa, quantA_qv]
    rfl
  · rw [exec_qbcd, quantBcd_qv]
    rfl
  · rw [exec_qc, quantC_qv]
    rfl

/-! ### The error of a quantized value (R163) -/

theorem bits64_toNat_mod {q : Int} (hlo : 0 ≤ q) {n : Nat} (hhi : q < n) (hn : n ≤ 2 ^ 64) :
    (((bits64 q).toNat % n : Nat) : Int) = q := by
  have h := toNat_bits64 q hlo (by omega)
  rw [Int.natCast_mod, h, Int.emod_eq_of_lt hlo hhi]

theorem signedField_bits64 {q : Int} (hlo : -16 ≤ q) (hhi : q ≤ 15) : signedField (bits64 q) 5 0 = q := by
  have h : (bits64 q).toNat / 2 ^ 0 % 2 ^ 5 = (q % 32).toNat := by
    rw [bits64, BitVec.toNat_ofInt]
    omega
  simp only [signedField, h]
  omega

section Operand

variable {s : State} {q : Int}

/-- DQA on a slot that holds a value of its field writes that value. -/
theorem exec_dqa_of_field (hs : s.a[0] = bits64 q) (hlo : 0 ≤ q) (hhi : q ≤ 511) :
    exec .dqa s = .next (afterSuccess s (slots1 (bits64 (q * 1020000000)))) := by
  rw [exec_dqa, hs, bits64_toNat_mod hlo (by omega) (by decide)]

theorem exec_dqbcd_of_field (hs : s.a[0] = bits64 q) (hlo : -16 ≤ q) (hhi : q ≤ 15) :
    exec .dqbcd s = .next (afterSuccess s (slots1 (bits64 (q * 10424400000)))) := by
  rw [exec_dqbcd, hs, signedField_bits64 hlo hhi]

theorem exec_dqc_of_field (hs : s.a[0] = bits64 q) (hlo : 0 ≤ q) (hhi : q ≤ 15) :
    exec .dqc s = .next (afterSuccess s (slots1 (bits64 (-156366000000 + 20848800000 * q)))) := by
  rw [exec_dqc, hs, bits64_toNat_mod hlo (by omega) (by decide)]

end Operand

theorem clampQ_of_mem {x lo hi : ℚ} (h1 : lo ≤ x) (h2 : x ≤ hi) : clampQ x lo hi = x := by
  rw [clampQ, if_neg h1.not_gt, if_neg h2.not_gt]

/-- A value scaled up by a positive factor, rounded and scaled down again has moved by half a step at most. -/
theorem abs_roundQ_div_sub_le {k : ℚ} (hk : 0 < k) (x : ℚ) : |(roundQ (k * x) : ℚ) / k - x| ≤ 1 / (2 * k) := by
  have h : (roundQ (k * x) : ℚ) / k - x = (roundQ (k * x) - k * x) / k := by field_simp
  rw [h, abs_div, abs_of_pos hk, div_le_iff₀ hk]
  calc |(roundQ (k * x) : ℚ) - k * x| ≤ 1 / 2 := roundQ_near _
    _ = 1 / (2 * k) * k := by field_simp

theorem dequantA_quantA_near {x : ℚ} (h0 : 0 ≤ x) (h1 : x ≤ 1) : |dequantA (quantA x) - x| ≤ 1 / (2 * 511) := by
  rw [dequantA, quantA, clampQ_of_mem h0 h1]
  exact abs_roundQ_div_sub_le (by norm_num) x

theorem dequantBcd_quantBcd_near {x : ℚ} (hlo : -3 / 10 ≤ x) (hhi : x ≤ 3 / 10) :
    |dequantBcd (quantBcd x) - x| ≤ 1 / (2 * 50) := by
  rw [dequantBcd, quantBcd, clampQ_of_mem hlo hhi]
  exact abs_roundQ_div_sub_le (by norm_num) x

theorem dequantC_quantC_near {x : ℚ} (hlo : -3 / 10 ≤ x) (hhi : x ≤ 3 / 10) :
    |dequantC (quantC x) - x| ≤ 6 / 10 / 15 / 2 := by
  have h := abs_roundQ_div_sub_le (k := 25) (by norm_num) (x + 3 / 10)
  have hscale : (x - (-3 / 10)) / (6 / 10) * 15 = 25 * (x + 3 / 10) := by ring
  rw [dequantC, quantC_eq_roundQ, clampQ_of_mem hlo hhi, hscale]
  convert h using 1
  · congr 1
    ring
  · norm_num

/-- Settles O35: the second command reads back the integer the first wrote, which is off by half a step at most. -/
theorem quantizerErrorIsBounded : Obligations.QuantizerErrorIsBounded := by
  refine fun s => ⟨fun h0 h1 => ?_, fun hlo hhi => ?_, fun hlo hhi => ?_⟩
  · obtain ⟨hq0, hq1⟩ := quantA_range (qv s.a[0])
    refine ⟨_, _, exec_qa s, exec_dqa_of_field rfl hq0 hq1, ?_⟩
    exact (qv_dequantA hq0 hq1).symm ▸ dequantA_quantA_near h0 h1
  · obtain ⟨hq0, hq1⟩ := quantBcd_range (qv s.a[0])
    refine ⟨_, _, exec_qbcd s, exec_dqbcd_of_field rfl (by omega) hq1, ?_⟩
    exact (qv_dequantBcd (by omega) hq1).symm ▸ dequantBcd_quantBcd_near (by linarith) hhi
  · obtain ⟨hq0, hq1⟩ := quantC_range (qv s.a[0])
    refine ⟨_, _, exec_qc s, exec_dqc_of_field rfl hq0 hq1, ?_⟩
    exact (qv_dequantC hq0 hq1).symm ▸ dequantC_quantC_near (by linarith) hhi

end Sys2Proof.Proofs
end

section
/-! The integer forms of the color space commands (section 1 of spec/40_color_space.md: R114 to R116). -/

namespace Sys2Proof.Proofs

open Sys2Proof.Machine Sys2Proof.Claims Sys2Proof.Laws

theorem toInt_lumaNum (x : Word) : (bits64 (lumaNum x)).toInt = lumaNum x := by
  obtain ⟨hlo, hhi⟩ := lumaNum_range x
  exact toInt_bits64 _ (by omega) (by omega)

theorem toInt_chromaBNum (x : Word) : (bits64 (chromaBNum x)).toInt = chromaBNum x := by
  obtain ⟨hlo, hhi⟩ := chromaBNum_range x
  exact toInt_bits64 _ (by omega) (by omega)

theorem toInt_chromaRNum (x : Word) : (bits64 (chromaRNum x)).toInt = chromaRNum x := by
  obtain ⟨hlo, hhi⟩ := chromaRNum_range x
  exact toInt_bits64 _ (by omega) (by omega)

/-- Settles O24: the numerators CSC_FWD writes are those of R114, and R116 bounds them. -/
theorem cscFwdIntegerForm : Obligations.CscFwdIntegerForm := by
  refine fun s => ⟨_, _, _, exec_cscFwd s, ?_⟩
  rw [toInt_lumaNum, toInt_chromaBNum, toInt_chromaRNum, abs_le, abs_le]
  obtain ⟨hlo, hhi⟩ := lumaNum_range s.a[0]
  exact ⟨rfl, rfl, rfl, hlo, hhi, chromaBNum_range _, chromaRNum_range _⟩

/-- A channel of a fraction is a floor division of its numerator, clamped to a byte: floor and clamp commute. -/
theorem chan_div (n : Int) {d : Int} (hd : 0 < d) : chan ((n : ℚ) / d) = max 0 (min 255 (255 * n / d)) := by
  have hscale : 255 * max 0 (min 1 ((n : ℚ) / d)) = max 0 (min 255 (((255 * n : Int) : ℚ) / d)) := by
    rw [mul_max_of_nonneg _ _ (by norm_num), mul_min_of_nonneg _ _ (by norm_num), mul_zero, mul_one, Int.cast_mul,
      Int.cast_ofNat, mul_div_assoc]
  rw [chan, hscale, Int.floor_mono.map_max, Int.floor_mono.map_min, floor_div _ _ hd, Int.floor_zero, Int.floor_ofNat]

theorem chan_red (y pr : Word) :
    chan (qv y + 1402 / 1000 * qv pr) =
      max 0 (min 255 (255 * (1000 * y.toInt + 1402 * pr.toInt) / (1000 * 521220000000))) := by
  rw [← chan_div _ (by decide), qv, qv]
  congr 1
  push_cast
  ring

theorem chan_green (y pb pr : Word) :
    chan (qv y - 344136 / 1000000 * qv pb - 714136 / 1000000 * qv pr) =
      max 0 (min 255 (255 * (1000000 * y.toInt - 344136 * pb.toInt - 714136 * pr.toInt) /
        (1000000 * 521220000000))) := by
  rw [← chan_div _ (by decide), qv, qv, qv]
  congr 1
  push_cast
  ring

theorem chan_blue (y pb : Word) :
    chan (qv y + 1772 / 1000 * qv pb) =
      max 0 (min 255 (255 * (1000 * y.toInt + 1772 * pb.toInt) / (1000 * 521220000000))) := by
  rw [← chan_div _ (by decide), qv, qv]
  congr 1
  push_cast
  ring

/-- Settles O26: each channel's argument in R113 is a fraction over a multiple of QDEN. -/
theorem cscInvIntegerForm : Obligations.CscInvIntegerForm := by
  intro s ny nb nr clamp255
  rw [exec_cscInv, rgb, chan_red, chan_green, chan_blue]

end Sys2Proof.Proofs
end

section
/-! The block transform and its inverse (section 1 of spec/42_block_transform.md). -/

namespace Sys2Proof.Proofs

open Sys2Proof.Machine Sys2Proof.Claims Sys2Proof.Laws

theorem dctInverse_dctForward (y1 y2 y3 y4 : ℚ) :
    dctInverse (dctForward y1 y2 y3 y4) = { y1 := y1, y2 := y2, y3 := y3, y4 := y4 } := by
  simp only [dctInverse, dctForward, Luma.mk.injEq]
  refine ⟨?_, ?_, ?_, ?_⟩ <;> ring

theorem dctForward_dctInverse (k : Coeffs) :
    dctForward (dctInverse k).y1 (dctInverse k).y2 (dctInverse k).y3 (dctInverse k).y4 = k := by
  obtain ⟨a, b, c, d⟩ := k
  simp only [dctInverse, dctForward, Coeffs.mk.injEq]
  refine ⟨?_, ?_, ?_, ?_⟩ <;> ring

/-- The four sums of R142 add up to four times the last operand, so the last one is a multiple of 4 with the others. -/
theorem forwardSums_dvd {a : Slots} (h0 : (4 : Int) ∣ (forwardSums a)[0]) (h1 : (4 : Int) ∣ (forwardSums a)[1])
    (h2 : (4 : Int) ∣ (forwardSums a)[2]) (j : Fin 4) : 4 ∣ (forwardSums a)[j] := by
  have h3 : (4 : Int) ∣ (forwardSums a)[3] := by
    simp only [forwardSums, Vector.getElem_mk, List.getElem_toArray, List.getElem_cons_zero,
      List.getElem_cons_succ] at *
    omega
  fin_cases j
  · exact h0
  · exact h1
  · exact h2
  · exact h3

/-! ### The commands where the words of the sums are known -/

section Sums

variable {s : State} {w : Fin 4 → Word}

theorem exec_dctFwd_of_quarters (h : ∀ j : Fin 4, 4 * (w j).toInt = (forwardSums s.a)[j]) :
    exec .dctFwd s = .next (afterSuccess s (slots6 (w 0) (w 1) (w 2) (w 3) s.a[4] s.a[5])) := by
  refine (exec_dctFwd s).trans (settle_transformResult_of_ok fun j => ?_)
  have hval : (forwardValues s.a)[j] * 521220000000 = (w j).toInt := by
    rw [forwardValues_mul_qden, ← h j]
    push_cast
    ring
  rw [qvOut_ok hval (toInt_range _).1 (toInt_range _).2, bits64_toInt]

theorem exec_dctInv_of_sums (h : ∀ j : Fin 4, (w j).toInt = (inverseSums s.a)[j]) :
    exec .dctInv s = .next (afterSuccess s (slots6 (w 0) (w 1) (w 2) (w 3) s.a[4] s.a[5])) := by
  refine (exec_dctInv s).trans (settle_transformResult_of_ok fun j => ?_)
  rw [qvOut_ok (inverseValues_mul_qden s.a j) (h j ▸ (toInt_range _).1) (h j ▸ (toInt_range _).2), ← h j, bits64_toInt]

end Sums

/-- The sums of R143 of quarters of the sums of R142 are the operands. -/
theorem inverseSums_of_quarters {a b : Slots} (h : ∀ j : Fin 4, 4 * b[j].toInt = (forwardSums a)[j]) (j : Fin 4) :
    a[j].toInt = (inverseSums b)[j] := by
  have h0 := h 0
  have h1 := h 1
  have h2 := h 2
  have h3 := h 3
  simp [forwardSums] at h0 h1 h2 h3
  fin_cases j <;> simp [inverseSums] <;> omega

/-- Settles O31: over the rationals by algebra; on the block the quarters are on the grid, and the sums of them are the
numerators of the operands. -/
theorem dctRoundTripIsExact : Obligations.DctRoundTripIsExact := by
  refine ⟨dctInverse_dctForward, dctForward_dctInverse, fun s h0 h1 h2 => ?_⟩
  choose w _ hw using fun j => qvOut_forwardValues_of_dvd (forwardSums_dvd (a := s.a) h0 h1 h2 j)
  refine ⟨_, _, exec_dctFwd_of_quarters hw, exec_dctInv_of_sums (w := fun j => s.a[j]) ?_, rfl⟩
  refine inverseSums_of_quarters fun j => ?_
  rw [← hw j]
  fin_cases j <;> rfl

end Sys2Proof.Proofs
end

section
/-! The get and new laws of R182 (spec/44_bitpacker.md), on the block. -/

namespace Sys2Proof.Proofs

open Sys2Proof.Machine Sys2Proof.Claims Sys2Proof.Laws

theorem getLsbD_of_toNat_lt {x : Word} {w : Nat} (h : x.toNat < 2 ^ w) (i : Nat) :
    (decide (i < w) && x.getLsbD i) = x.getLsbD i := by
  rw [BitVec.getLsbD, ← Nat.testBit_mod_two_pow, Nat.mod_eq_of_lt h]

/-- A word in the signed range of `w` bits is the sign extension of its low `w` bits. -/
theorem signExtend_setWidth_of_range {x : Word} {w : Nat} (hw0 : 0 < w) (hw : w ≤ 64)
    (hlo : -((2 : Int) ^ (w - 1)) ≤ x.toInt) (hhi : x.toInt ≤ 2 ^ (w - 1) - 1) : (x.setWidth w).signExtend 64 = x := by
  have hpow : ((2 ^ w : Nat) : Int) = 2 * 2 ^ (w - 1) := by
    rw [← pow_succ', Nat.sub_add_cancel hw0]
    push_cast
    rfl
  refine BitVec.eq_of_toInt_eq ?_
  rw [BitVec.toInt_signExtend_of_le hw, BitVec.toInt_setWidth,
    ← Int.bmod_bmod_of_dvd (m := 2 ^ 64) (pow_dvd_pow 2 hw), ← BitVec.toInt_eq_toNat_bmod, Int.bmod_eq_of_le] <;> omega

theorem getLsbD_of_toInt_range {x : Word} {w : Nat} (hw0 : 0 < w) (hw : w ≤ 64)
    (hlo : -((2 : Int) ^ (w - 1)) ≤ x.toInt) (hhi : x.toInt ≤ 2 ^ (w - 1) - 1) {i : Nat} (hi : i < 64) :
    x.getLsbD (min i (w - 1)) = x.getLsbD i := by
  have hm : min i (w - 1) < w := by omega
  conv_rhs => rw [← signExtend_setWidth_of_range hw0 hw hlo hhi, signExtend_bit _ hi]
  rw [BitVec.getLsbD_setWidth, decide_eq_true hm, Bool.true_and]

section Insertion

variable {w l : Nat} {x : Word} {v : Int}

/-- A bit below the width of an inserted field is that of the value's pattern (R181). -/
theorem insertField_bit_field (hl : w + l ≤ 64) (hv : bits64 v = x) (word : Word) {i : Nat} (hi : i < w) :
    (insertField word w l v).getLsbD (l + i) = x.getLsbD i := by
  rw [insertField_bit_of_pattern hv word (by omega) l (l + i) (by omega), if_pos (by omega), Nat.add_sub_cancel_left]

/-- The unsigned reading of a field just inserted is the value, if it has no bit above the field. -/
theorem bits64_getU_insertField (hl : w + l ≤ 64) (hv : bits64 v = x) (word : Word) (hx : x.toNat < 2 ^ w) :
    bits64 (getU (insertField word w l v) w l) = x := by
  refine BitVec.eq_of_getLsbD_eq fun i hi => ?_
  rw [getU_bit _ _ _ hi, ← getLsbD_of_toNat_lt hx i]
  by_cases h : i < w
  · rw [insertField_bit_field hl hv word h]
  · simp [h]

/-- The signed reading of a field just inserted is the value, if the value repeats the field's top bit. -/
theorem bits64_getS_insertField (hl : w + l ≤ 64) (hv : bits64 v = x) (word : Word) (h0 : 0 < w)
    (hlo : -((2 : Int) ^ (w - 1)) ≤ x.toInt) (hhi : x.toInt ≤ 2 ^ (w - 1) - 1) :
    bits64 (getS (insertField word w l v) w l) = x := by
  refine BitVec.eq_of_getLsbD_eq fun i hi => ?_
  rw [getS_bit _ _ _ hi, insertField_bit_field hl hv word (by omega), decide_eq_true h0, Bool.true_and,
    getLsbD_of_toInt_range h0 (by omega) hlo hhi hi]

end Insertion

theorem exec_newu_of_fits {s : State} {w l : Nat} (hw : w ≤ 64) (hl : w + l ≤ 64) (hfit : s.a[1].toNat < 2 ^ w) :
    exec (.newu w l) s = .next (afterSuccess s (slots1 (insertField s.a[0] w l s.a[1].toNat))) := by
  rw [exec_newu, newU_of_fits ((fitsU_iff _ _).mpr hfit), settle_contract_ok s hw hl]

theorem exec_news_of_fits {s : State} {w l : Nat} (hw : w ≤ 64) (hl : w + l ≤ 64)
    (hfit : if w = 0 then s.a[1] = 0 else -((2 : Int) ^ (w - 1)) ≤ s.a[1].toInt ∧ s.a[1].toInt ≤ 2 ^ (w - 1) - 1) :
    exec (.news w l) s = .next (afterSuccess s (slots1 (insertField s.a[0] w l s.a[1].toInt))) := by
  rw [exec_news, newS_of_fits ((fitsS_toInt_iff _ _).mpr hfit), settle_contract_ok s hw hl]

/-- Settles O39: the second command reads the field the first inserted, and a value that fits is all in the field. -/
theorem getOfNewGivesValue : Obligations.GetOfNewGivesValue := by
  refine fun s w l hw hl => ⟨fun hfit => ?_, fun hfit => ?_⟩
  · refine ⟨_, _, exec_newu_of_fits hw hl hfit, (exec_getu w l _).trans (settle_contract_ok _ hw hl _), ?_⟩
    exact bits64_getU_insertField hl (bits64_toNat _) _ hfit
  · refine ⟨_, _, exec_news_of_fits hw hl hfit, (exec_gets w l _).trans (settle_contract_ok _ hw hl _), ?_⟩
    rcases Nat.eq_zero_or_pos w with rfl | h0
    · rw [if_pos rfl] at hfit
      exact hfit.symm
    · rw [if_neg h0.ne'] at hfit
      exact bits64_getS_insertField hl (bits64_toInt _) _ h0 hfit.1 hfit.2

end Sys2Proof.Proofs
end

section
/-!
Packing and unpacking are inverse (R194 of spec/45_codeword.md), first for fields and codewords, then on the block.
-/

namespace Sys2Proof.Proofs

open Sys2Proof.Machine Sys2Proof.Claims Sys2Proof.Laws

/-- The ranges of the six fields of a codeword (R190). -/
theorem fieldsFit_iff (f : Fields) :
    (∀ k : Fin 6, (fieldsFit f)[k] = true) ↔
      (0 ≤ f.a ∧ f.a ≤ 511) ∧ (-16 ≤ f.b ∧ f.b ≤ 15) ∧ (-16 ≤ f.c ∧ f.c ≤ 15) ∧ (-16 ≤ f.d ∧ f.d ≤ 15) ∧
        (0 ≤ f.pb ∧ f.pb ≤ 15) ∧ (0 ≤ f.pr ∧ f.pr ≤ 15) := by
  simp [Fin.forall_fin_succ, fieldsFit, fitsU, fitsS]

/-! ### Fields and codewords -/

section Codeword

variable {f : Fields} (hf : ∀ k : Fin 6, (fieldsFit f)[k] = true)

include hf

theorem codeword_toNat :
    ((codeword f.a f.b f.c f.d f.pb f.pr).toNat : Int) =
      f.a * 2 ^ 23 + f.b % 32 * 2 ^ 18 + f.c % 32 * 2 ^ 13 + f.d % 32 * 2 ^ 8 + f.pb * 2 ^ 4 + f.pr := by
  obtain ⟨ha, -, -, -, hpb, hpr⟩ := (fieldsFit_iff f).mp hf
  exact toNat_bits64 _ (by omega) (by omega)

theorem cwUnpack_codeword : cwUnpack (codeword f.a f.b f.c f.d f.pb f.pr) = f := by
  have hn := codeword_toNat hf
  obtain ⟨ha, hb, hc, hd, hpb, hpr⟩ := (fieldsFit_iff f).mp hf
  generalize codeword f.a f.b f.c f.d f.pb f.pr = cw at hn
  obtain ⟨a, b, c, d, pb, pr⟩ := f
  simp only [cwUnpack, getU, getS, sint, field, Fields.mk.injEq] at *
  refine ⟨?_, ?_, ?_, ?_, ?_, ?_⟩ <;> omega

theorem operandFields_slots6 :
    operandFields (slots6 (bits64 f.a) (bits64 f.b) (bits64 f.c) (bits64 f.d) (bits64 f.pb) (bits64 f.pr)) = f := by
  obtain ⟨ha, hb, hc, hd, hpb, hpr⟩ := (fieldsFit_iff f).mp hf
  simp only [operandFields, slots6, Vector.getElem_mk, List.getElem_toArray, List.getElem_cons_zero,
    List.getElem_cons_succ]
  rw [toNat_bits64 _ (by omega) (by omega), toNat_bits64 _ (by omega) (by omega), toNat_bits64 _ (by omega) (by omega),
    toInt_bits64 _ (by omega) (by omega), toInt_bits64 _ (by omega) (by omega), toInt_bits64 _ (by omega) (by omega)]

end Codeword

theorem fieldsFit_cwUnpack (cw : Word) (k : Fin 6) : (fieldsFit (cwUnpack cw))[k] = true := by
  revert k
  rw [fieldsFit_iff]
  simp only [cwUnpack, getU, getS, sint, field]
  omega

/-- The low bits of a signed reading are the field. -/
theorem getS_emod (x : Word) (l : Nat) : getS x 5 l % 32 = field x 5 l := by
  have h := field_lt x 5 l
  unfold getS sint
  omega

/-- Of a word, its fields hold bits 31:0 and no more. -/
theorem codeword_cwUnpack (cw : Word) :
    (let f := cwUnpack cw; codeword f.a f.b f.c f.d f.pb f.pr) = BitVec.ofNat 64 (cw.toNat % 2 ^ 32) := by
  have hn := codeword_toNat (fieldsFit_cwUnpack cw)
  apply BitVec.eq_of_toNat_eq
  zify
  rw [hn, BitVec.toNat_ofNat]
  simp only [cwUnpack, getS_emod, getU, field]
  omega

/-! ### CW_PACK and CW_UNPACK -/

theorem exec_cwPack_of_fits {s : State} {f : Fields} (hs : operandFields s.a = f)
    (hf : ∀ k : Fin 6, (fieldsFit f)[k] = true) :
    exec .cwPack s = .next (afterSuccess s (slots1 (codeword f.a f.b f.c f.d f.pb f.pr))) := by
  rw [exec_cwPack, hs, cwPack_of_fits hf]
  exact settle_single _ s

/-- A pack that records no fault found every field to fit. -/
theorem fieldsFit_of_exec_cwPack {s t : State} (ht : exec .cwPack s = .next t) (hfault : t.status.fault = false)
    (k : Fin 6) : (fieldsFit (operandFields s.a))[k] = true := by
  rw [exec_cwPack, cwPack_eq] at ht
  cases hu : firstUnfit (operandFields s.a) with
  | none =>
    have hk := Fin.find?_eq_none_iff.mp hu k
    simpa using hk
  | some j =>
    rw [hu] at ht
    obtain rfl : recordFault _ s = t := Host.Outcome.next.inj ht
    cases hfault

theorem exec_cwUnpack_of_codeword {s : State} {f : Fields} (hs : s.a[0] = codeword f.a f.b f.c f.d f.pb f.pr)
    (hf : ∀ k : Fin 6, (fieldsFit f)[k] = true) :
    exec .cwUnpack s = .next (afterSuccess s
      (slots6 (bits64 f.a) (bits64 f.b) (bits64 f.c) (bits64 f.d) (bits64 f.pb) (bits64 f.pr))) := by
  have hfields : cwUnpack s.a[0] = f := by rw [hs, cwUnpack_codeword hf]
  subst hfields
  exact exec_cwUnpack s

/-- Settles O42: fields that fit are read back from their codeword, and a word is its fields as far as bits 31:0 go. -/
theorem packAndUnpackAreInverse : Obligations.PackAndUnpackAreInverse := by
  refine ⟨fun s t ht hfault => ?_, fun s t ht => ?_⟩
  · have hf := fieldsFit_of_exec_cwPack ht hfault
    obtain rfl : afterSuccess s _ = t := Host.Outcome.next.inj ((exec_cwPack_of_fits rfl hf).symm.trans ht)
    rw [exec_cwUnpack_of_codeword rfl hf]
    simp only [operandFields, bits64_toNat, bits64_toInt]
  · obtain rfl : afterSuccess s _ = t := Host.Outcome.next.inj ((exec_cwUnpack s).symm.trans ht)
    have hf := fieldsFit_cwUnpack s.a[0]
    rw [← codeword_cwUnpack]
    exact exec_cwPack_of_fits (operandFields_slots6 hf) hf

end Sys2Proof.Proofs
end

section
/-!
DEC_BLOCK, and the commands beside the runs (sections 2 and 3 of spec/46_block_codec.md, section 3 of
spec/47_host_framing.md).
-/

namespace Sys2Proof.Proofs

open Sys2Proof.Machine Sys2Proof.Claims Sys2Proof.Laws

theorem exec_decBlock (s : State) :
    exec .decBlock s =
      let k := decCoeffs s.a[0]
      .next (afterSuccess s (slots4 (rgb k.y1 k.pb k.pr) (rgb k.y2 k.pb k.pr) (rgb k.y3 k.pb k.pr)
        (rgb k.y4 k.pb k.pr))) := by
  rw [exec, execDecBlock, decBlockResult, settle_ok]
  simp only [decBlock, broadcast, pixOut_yPbPrToRgb]
  rfl

/-- Settles O44: the fields of the codeword are those of R90 in the readings of R93, and no step of R204 can fault. -/
theorem decBlockWritesPixels : Obligations.DecBlockWritesPixels := by
  refine ⟨by decide, fun s => ?_⟩
  have h5 : 0 < 5 := by decide
  simp only [exec_decBlock, decCoeffs, cwUnpack, dctInverse, dequantA, dequantBcd, dequantC, getS_eq_signedField _ h5,
    getU, field, pow_zero, Nat.div_one, Int.cast_natCast, neg_div]
  rfl

/-! ### The commands and the runs -/

theorem slotOf_channels (p : Pixel) :
    red (slotOf p) = p.r.toNat ∧ green (slotOf p) = p.g.toNat ∧ blue (slotOf p) = p.b.toNat := by
  have hr := p.r.isLt
  have hg := p.g.isLt
  have hb := p.b.isLt
  have hn : (slotOf p).toNat = p.r.toNat * 65536 + p.g.toNat * 256 + p.b.toNat := by
    zify
    exact toNat_bits64 _ (by omega) (by omega)
  rw [red, green, blue, hn]
  omega

theorem pixel_ext {p q : Pixel} (hr : p.r = q.r) (hg : p.g = q.g) (hb : p.b = q.b) : p = q := by
  cases p
  cases q
  simp_all

/-- A pixel written to a PIX slot is read back (R12). -/
theorem pixIn_slotOf (p : Pixel) : pixIn (slotOf p) = p := by
  obtain ⟨hr, hg, hb⟩ := slotOf_channels p
  exact pixel_ext (BitVec.eq_of_toNat_eq ((pixIn_r_toNat _).trans hr))
    (BitVec.eq_of_toNat_eq ((pixIn_g_toNat _).trans hg)) (BitVec.eq_of_toNat_eq ((pixIn_b_toNat _).trans hb))

theorem exec_encBlock_slotOf {s : State} {p1 p2 p3 p4 : Pixel}
    (hs : s.a = slots4 (slotOf p1) (slotOf p2) (slotOf p3) (slotOf p4)) :
    exec .encBlock s = .next (afterSuccess s (slots1 (blockCodeword p1 p2 p3 p4))) := by
  rw [exec_encBlock, hs]
  simp only [slots4, Vector.getElem_mk, List.getElem_toArray, List.getElem_cons_zero, List.getElem_cons_succ,
    pixIn_slotOf, blockCodeword]

/-- The four slots DEC_BLOCK writes are those of the pixels of R204. -/
theorem exec_decBlock_slotOf (s : State) :
    exec .decBlock s =
      let q := decBlock s.a[0]
      .next (afterSuccess s (slots4 (slotOf q.1) (slotOf q.2.1) (slotOf q.2.2.1) (slotOf q.2.2.2))) := by
  rw [exec, execDecBlock, decBlockResult, settle_ok]
  simp only [pixOut_eq_pix]
  rfl

/-- Settles O57: a PIX slot and a pixel say the same, so the commands apply the block functions to the same pixels. -/
theorem runsComputeWhatCommandsWrite : Obligations.RunsComputeWhatCommandsWrite :=
  ⟨fun _ p1 p2 p3 p4 => ⟨_, encBlock_eq_blockCodeword p1 p2 p3 p4, exec_encBlock_slotOf rfl⟩,
    fun _ _ => ⟨_, _, _, _, rfl, exec_decBlock_slotOf _⟩⟩

end Sys2Proof.Proofs
end

section
/-!
The stage chains of R205 (spec/46_block_codec.md): each stage finds its operands on the QV grid and leaves its results
there, so that nothing is rounded on the way and no stage faults.
-/

namespace Sys2Proof.Proofs

open Sys2Proof.Machine Sys2Proof.Claims Sys2Proof.Laws

/-! ### Values at the QV port -/

/-- What a result slot is given for a value stands for that value: nothing is rounded (R12). -/
theorem qv_of_qvOut {j : Nat} {v : ℚ} {p : Word} (h : qvOut j v = .ok p) : qv p = v := by
  unfold qvOut at h
  split at h
  · next hgrid =>
    obtain ⟨n, hn, hlo, hhi⟩ := (onGrid_iff v).mp hgrid
    have hok := qvOut_ok (j := j) hn hlo hhi
    rw [qvOut, if_pos hgrid, h] at hok
    rw [Except.ok.inj hok, qv_bits64_eq hn hlo hhi]
  · cases h

/-- BLK_FWD where both sums are multiples of 4: the averages, as values. -/
theorem exec_blkFwd_of_dvd {s : State} (hb : 4 ∣ numSum s.a[1] s.a[4] s.a[7] s.a[10])
    (hr : 4 ∣ numSum s.a[2] s.a[5] s.a[8] s.a[11]) :
    ∃ pb pr : Word, exec .blkFwd s = .next (afterSuccess s (slots6 s.a[0] s.a[3] s.a[6] s.a[9] pb pr)) ∧
      qv pb = qvMean s.a[1] s.a[4] s.a[7] s.a[10] ∧ qv pr = qvMean s.a[2] s.a[5] s.a[8] s.a[11] := by
  obtain ⟨pb, hpb, -⟩ := qvOut_qvMean_of_dvd 4 hb
  obtain ⟨pr, hpr, -⟩ := qvOut_qvMean_of_dvd 5 hr
  exact ⟨pb, pr, exec_blkFwd_of_ok (qvOutAll_ok hpb (qvOutAll_ok hpr rfl)), qv_of_qvOut hpb, qv_of_qvOut hpr⟩

/-- DCT_FWD where all sums are multiples of 4: the coefficients, as values. -/
theorem exec_dctFwd_of_dvd {s : State} (h : ∀ j : Fin 4, 4 ∣ (forwardSums s.a)[j]) :
    ∃ w : Fin 4 → Word, exec .dctFwd s = .next (afterSuccess s (slots6 (w 0) (w 1) (w 2) (w 3) s.a[4] s.a[5])) ∧
      ∀ j : Fin 4, qv (w j) = (forwardValues s.a)[j] := by
  choose w hw _ using fun j => qvOut_forwardValues_of_dvd (h j)
  exact ⟨w, (exec_dctFwd s).trans (settle_transformResult_of_ok hw), fun j => qv_of_qvOut (hw j)⟩

/-- DCT_INV where all sums fit a slot: the luma values, as values. -/
theorem exec_dctInv_of_range {s : State}
    (h : ∀ j : Fin 4, -(2 ^ 63) ≤ (inverseSums s.a)[j] ∧ (inverseSums s.a)[j] ≤ 2 ^ 63 - 1) :
    ∃ w : Fin 4 → Word, exec .dctInv s = .next (afterSuccess s (slots6 (w 0) (w 1) (w 2) (w 3) s.a[4] s.a[5])) ∧
      ∀ j : Fin 4, qv (w j) = (inverseValues s.a)[j] := by
  choose w hw _ using fun j => qvOut_inverseValues_of_range (h j)
  exact ⟨w, (exec_dctInv s).trans (settle_transformResult_of_ok hw), fun j => qv_of_qvOut (hw j)⟩

@[simp] theorem afterSuccess_fault (s : State) (z : Slots) : (afterSuccess s z).status.fault = s.status.fault := rfl
@[simp] theorem afterSuccess_z (s : State) (z : Slots) : (afterSuccess s z).z = z := rfl
@[simp] theorem withA_fault (s : State) (a : Slots) : (withA s a).status.fault = s.status.fault := rfl

@[simp] theorem slots1_zero (x : Word) : (slots1 x)[0] = x := rfl
@[simp] theorem slots4_zero (x0 x1 x2 x3 : Word) : (slots4 x0 x1 x2 x3)[0] = x0 := rfl
@[simp] theorem slots4_one (x0 x1 x2 x3 : Word) : (slots4 x0 x1 x2 x3)[1] = x1 := rfl
@[simp] theorem slots4_two (x0 x1 x2 x3 : Word) : (slots4 x0 x1 x2 x3)[2] = x2 := rfl
@[simp] theorem slots4_three (x0 x1 x2 x3 : Word) : (slots4 x0 x1 x2 x3)[3] = x3 := rfl

/-! ### The compress chain -/

/-- The constants of CSC_FWD are multiples of 4, and so is every sum of its numerators (R205). -/
theorem four_dvd_lumaNum (x : Word) : 4 ∣ lumaNum x := by
  unfold lumaNum
  omega

theorem four_dvd_chromaBNum (x : Word) : 4 ∣ chromaBNum x := by
  unfold chromaBNum
  omega

theorem four_dvd_chromaRNum (x : Word) : 4 ∣ chromaRNum x := by
  unfold chromaRNum
  omega

/-- The operands of BLK_FWD that CSC_FWD leaves for four pixels. -/
def pixelSlots (x1 x2 x3 x4 : Word) : Slots :=
  #v[bits64 (lumaNum x1), bits64 (chromaBNum x1), bits64 (chromaRNum x1),
    bits64 (lumaNum x2), bits64 (chromaBNum x2), bits64 (chromaRNum x2),
    bits64 (lumaNum x3), bits64 (chromaBNum x3), bits64 (chromaRNum x3),
    bits64 (lumaNum x4), bits64 (chromaBNum x4), bits64 (chromaRNum x4), 0, 0, 0, 0]

theorem exec_blkFwd_pixelSlots {s : State} {x1 x2 x3 x4 : Word} (hs : s.a = pixelSlots x1 x2 x3 x4) :
    ∃ pb pr : Word, exec .blkFwd s = .next (afterSuccess s (slots6 (bits64 (lumaNum x1)) (bits64 (lumaNum x2))
        (bits64 (lumaNum x3)) (bits64 (lumaNum x4)) pb pr)) ∧
      qv pb = (chromaB x1 + chromaB x2 + chromaB x3 + chromaB x4) / 4 ∧
      qv pr = (chromaR x1 + chromaR x2 + chromaR x3 + chromaR x4) / 4 := by
  have blk := exec_blkFwd_of_dvd (s := s)
  simp only [hs, pixelSlots, Vector.getElem_mk, List.getElem_toArray, List.getElem_cons_zero, List.getElem_cons_succ,
    numSum, toInt_chromaBNum, toInt_chromaRNum, qvMean, qvIn_eq_qv, qv_chromaBNum, qv_chromaRNum] at blk
  refine blk (dvd_add (dvd_add (dvd_add ?_ ?_) ?_) ?_) (dvd_add (dvd_add (dvd_add ?_ ?_) ?_) ?_)
  iterate 4 exact four_dvd_chromaBNum _
  iterate 4 exact four_dvd_chromaRNum _

theorem exec_dctFwd_lumas {s : State} {x1 x2 x3 x4 pb pr : Word}
    (hs : s.a = slots6 (bits64 (lumaNum x1)) (bits64 (lumaNum x2)) (bits64 (lumaNum x3)) (bits64 (lumaNum x4)) pb pr) :
    ∃ w : Fin 4 → Word, exec .dctFwd s = .next (afterSuccess s (slots6 (w 0) (w 1) (w 2) (w 3) pb pr)) ∧
      let k := dctForward (luma x1) (luma x2) (luma x3) (luma x4)
      qv (w 0) = k.a ∧ qv (w 1) = k.b ∧ qv (w 2) = k.c ∧ qv (w 3) = k.d := by
  have h1 := four_dvd_lumaNum x1
  have h2 := four_dvd_lumaNum x2
  have h3 := four_dvd_lumaNum x3
  have h4 := four_dvd_lumaNum x4
  have hdvd (j : Fin 4) : 4 ∣ (forwardSums s.a)[j] := by
    rw [hs]
    fin_cases j <;> simp [forwardSums, slots6, toInt_lumaNum] <;> omega
  obtain ⟨w, hexec, hw⟩ := exec_dctFwd_of_dvd hdvd
  rw [hs] at hexec hw
  have hval : forwardValues (slots6 (bits64 (lumaNum x1)) (bits64 (lumaNum x2)) (bits64 (lumaNum x3))
      (bits64 (lumaNum x4)) pb pr) =
      let k := dctForward (luma x1) (luma x2) (luma x3) (luma x4)
      #v[k.a, k.b, k.c, k.d] := by
    simp [forwardValues, slots6, qvIn_eq_qv, qv_lumaNum]
  rw [hval] at hw
  exact ⟨w, hexec, hw 0, hw 1, hw 2, hw 3⟩

section Stage

variable (s : State) (x : Word)

/-! The stages after their operands are placed. -/

theorem exec_cscFwd_slots1 :
    exec .cscFwd (withA s (slots1 x)) = .next (afterSuccess (withA s (slots1 x))
      (slots6 (bits64 (lumaNum x)) (bits64 (chromaBNum x)) (bits64 (chromaRNum x)) 0 0 0)) := exec_cscFwd _

theorem exec_qa_slots1 :
    exec .qa (withA s (slots1 x)) = .next (afterSuccess (withA s (slots1 x)) (slots1 (bits64 (quantA (qv x))))) :=
  exec_qa _

theorem exec_qbcd_slots1 :
    exec .qbcd (withA s (slots1 x)) = .next (afterSuccess (withA s (slots1 x)) (slots1 (bits64 (quantBcd (qv x))))) :=
  exec_qbcd _

theorem exec_qc_slots1 :
    exec .qc (withA s (slots1 x)) = .next (afterSuccess (withA s (slots1 x)) (slots1 (bits64 (quantC (qv x))))) :=
  exec_qc _

theorem exec_cwPack_slots6 {f : Fields} (hf : ∀ k : Fin 6, (fieldsFit f)[k] = true) :
    let a := slots6 (bits64 f.a) (bits64 f.b) (bits64 f.c) (bits64 f.d) (bits64 f.pb) (bits64 f.pr)
    exec .cwPack (withA s a) =
      .next (afterSuccess (withA s a) (slots1 (codeword f.a f.b f.c f.d f.pb f.pr))) :=
  exec_cwPack_of_fits (operandFields_slots6 hf) hf

end Stage

/-- Settles O45: every stage finds its sums on the grid and hands on the values of R203 exactly. -/
theorem encBlockEqualsStageChain : Obligations.EncBlockEqualsStageChain := by
  intro s hfault
  obtain ⟨pb, pr, hblk, hpb, hpr⟩ :=
    exec_blkFwd_pixelSlots (s := withA s (pixelSlots s.a[0] s.a[1] s.a[2] s.a[3])) rfl
  obtain ⟨w, hdct, ha, hb, hc, hd⟩ :=
    exec_dctFwd_lumas (s := withA s (slots6 (bits64 (lumaNum s.a[0])) (bits64 (lumaNum s.a[1]))
      (bits64 (lumaNum s.a[2])) (bits64 (lumaNum s.a[3])) pb pr)) rfl
  have hf := fieldsFit_encFields (pixIn s.a[0]) (pixIn s.a[1]) (pixIn s.a[2]) (pixIn s.a[3])
  have hfields : encFields (pixIn s.a[0]) (pixIn s.a[1]) (pixIn s.a[2]) (pixIn s.a[3]) =
      { a := quantA (qv (w 0)), b := quantBcd (qv (w 1)), c := quantBcd (qv (w 2)), d := quantBcd (qv (w 3))
        pb := quantC (qv pb), pr := quantC (qv pr) } := by
    simp only [encFields, sample, rgbToYPbPr_pixIn, ha, hb, hc, hd, hpb, hpr]
  have henc := exec_encBlock s
  rw [hfields] at hf henc
  have hpack := exec_cwPack_slots6 s hf
  dsimp only at hpack henc
  refine ⟨_, _, _, _, _, _, _, _, _, _, _, _, _, _, exec_cscFwd_slots1 .., exec_cscFwd_slots1 ..,
    exec_cscFwd_slots1 .., exec_cscFwd_slots1 .., hblk, hdct, exec_qa_slots1 .., exec_qbcd_slots1 ..,
    exec_qbcd_slots1 .., exec_qbcd_slots1 .., exec_qc_slots1 .., exec_qc_slots1 ..,
    hpack, henc, rfl, ?_⟩
  simp [hfault]

/-! ### The decompress chain -/

/-- The operands of DCT_INV that the dequantizers leave for six fields. -/
def coeffSlots (f : Fields) : Slots :=
  slots6 (bits64 (f.a * 1020000000)) (bits64 (f.b * 10424400000)) (bits64 (f.c * 10424400000))
    (bits64 (f.d * 10424400000)) (bits64 (-156366000000 + 20848800000 * f.pb))
    (bits64 (-156366000000 + 20848800000 * f.pr))

section Decompress

variable {f : Fields} (hf : ∀ k : Fin 6, (fieldsFit f)[k] = true)

include hf

/-- The coefficients of a codeword are small: no sum of them leaves the range of a slot (R205). -/
theorem inverseSums_coeffSlots_range (j : Fin 4) :
    -(2 ^ 63) ≤ (inverseSums (coeffSlots f))[j] ∧ (inverseSums (coeffSlots f))[j] ≤ 2 ^ 63 - 1 := by
  obtain ⟨ha, hb, hc, hd, -⟩ := (fieldsFit_iff f).mp hf
  have ea : (bits64 (f.a * 1020000000)).toInt = f.a * 1020000000 := toInt_bits64 _ (by omega) (by omega)
  have eb : (bits64 (f.b * 10424400000)).toInt = f.b * 10424400000 := toInt_bits64 _ (by omega) (by omega)
  have ec : (bits64 (f.c * 10424400000)).toInt = f.c * 10424400000 := toInt_bits64 _ (by omega) (by omega)
  have ed : (bits64 (f.d * 10424400000)).toInt = f.d * 10424400000 := toInt_bits64 _ (by omega) (by omega)
  fin_cases j <;> simp [inverseSums, coeffSlots, slots6, ea, eb, ec, ed] <;> omega

theorem inverseValues_coeffSlots :
    inverseValues (coeffSlots f) =
      let y := dctInverse { a := dequantA f.a, b := dequantBcd f.b, c := dequantBcd f.c, d := dequantBcd f.d }
      #v[y.y1, y.y2, y.y3, y.y4] := by
  obtain ⟨ha, hb, hc, hd, -⟩ := (fieldsFit_iff f).mp hf
  simp [inverseValues, coeffSlots, slots6, qvIn_eq_qv, qv_dequantA ha.1 ha.2, qv_dequantBcd hb.1 hb.2,
    qv_dequantBcd hc.1 hc.2, qv_dequantBcd hd.1 hd.2]

theorem exec_dctInv_coeffSlots (s : State) :
    ∃ w : Fin 4 → Word, exec .dctInv (withA s (coeffSlots f)) = .next (afterSuccess (withA s (coeffSlots f))
        (slots6 (w 0) (w 1) (w 2) (w 3) (bits64 (-156366000000 + 20848800000 * f.pb))
          (bits64 (-156366000000 + 20848800000 * f.pr)))) ∧
      let y := dctInverse { a := dequantA f.a, b := dequantBcd f.b, c := dequantBcd f.c, d := dequantBcd f.d }
      qv (w 0) = y.y1 ∧ qv (w 1) = y.y2 ∧ qv (w 2) = y.y3 ∧ qv (w 3) = y.y4 := by
  obtain ⟨w, hexec, hw⟩ := exec_dctInv_of_range (s := withA s (coeffSlots f)) (inverseSums_coeffSlots_range hf)
  have hvals : (inverseValues (withA s (coeffSlots f)).a) = _ := inverseValues_coeffSlots hf
  rw [hvals] at hw
  exact ⟨w, hexec, hw 0, hw 1, hw 2, hw 3⟩

end Decompress

section Stage

variable (s : State)

theorem exec_cwUnpack_slots1 (x : Word) :
    let f := cwUnpack x
    exec .cwUnpack (withA s (slots1 x)) = .next (afterSuccess (withA s (slots1 x))
      (slots6 (bits64 f.a) (bits64 f.b) (bits64 f.c) (bits64 f.d) (bits64 f.pb) (bits64 f.pr))) := exec_cwUnpack _

theorem exec_dqa_slots1 {q : Int} (hq : 0 ≤ q ∧ q ≤ 511) :
    exec .dqa (withA s (slots1 (bits64 q))) =
      .next (afterSuccess (withA s (slots1 (bits64 q))) (slots1 (bits64 (q * 1020000000)))) :=
  exec_dqa_of_field rfl hq.1 hq.2

theorem exec_dqbcd_slots1 {q : Int} (hq : -16 ≤ q ∧ q ≤ 15) :
    exec .dqbcd (withA s (slots1 (bits64 q))) =
      .next (afterSuccess (withA s (slots1 (bits64 q))) (slots1 (bits64 (q * 10424400000)))) :=
  exec_dqbcd_of_field rfl hq.1 hq.2

theorem exec_dqc_slots1 {q : Int} (hq : 0 ≤ q ∧ q ≤ 15) :
    exec .dqc (withA s (slots1 (bits64 q))) =
      .next (afterSuccess (withA s (slots1 (bits64 q))) (slots1 (bits64 (-156366000000 + 20848800000 * q)))) :=
  exec_dqc_of_field rfl hq.1 hq.2

theorem exec_blkInv_slots6 (y1 y2 y3 y4 pb pr : Word) :
    exec .blkInv (withA s (slots6 y1 y2 y3 y4 pb pr)) = .next (afterSuccess (withA s (slots6 y1 y2 y3 y4 pb pr))
      (slotsOf [y1, pb, pr, y2, pb, pr, y3, pb, pr, y4, pb, pr])) := exec_blkInv _

theorem exec_cscInv_slots4 (y pb pr : Word) :
    exec .cscInv (withA s (slots4 y pb pr 0)) =
      .next (afterSuccess (withA s (slots4 y pb pr 0)) (slots1 (rgb (qv y) (qv pb) (qv pr)))) := exec_cscInv _

end Stage

/-- Settles O46: every stage finds its operands in its field or in range and hands on the values of R204 exactly. -/
theorem decBlockEqualsStageChain : Obligations.DecBlockEqualsStageChain := by
  intro s hfault
  have hf := fieldsFit_cwUnpack s.a[0]
  have hunpack := exec_cwUnpack_slots1 s s.a[0]
  have hdec := exec_decBlock s
  simp only [decCoeffs] at hdec
  generalize cwUnpack s.a[0] = f at hf hunpack hdec
  obtain ⟨ha, hb, hc, hd, hpb, hpr⟩ := (fieldsFit_iff f).mp hf
  obtain ⟨w, hdct, h1, h2, h3, h4⟩ := exec_dctInv_coeffSlots hf s
  simp only [← h1, ← h2, ← h3, ← h4, ← qv_dequantC hpb.1 hpb.2, ← qv_dequantC hpr.1 hpr.2] at hdec
  have hcsc (y : Word) := exec_cscInv_slots4 s y (bits64 (-156366000000 + 20848800000 * f.pb))
    (bits64 (-156366000000 + 20848800000 * f.pr))
  refine ⟨_, _, _, _, _, _, _, _, _, _, _, _, _, _, hunpack, exec_dqa_slots1 s ha, exec_dqbcd_slots1 s hb,
    exec_dqbcd_slots1 s hc, exec_dqbcd_slots1 s hd, exec_dqc_slots1 s hpb, exec_dqc_slots1 s hpr, hdct,
    exec_blkInv_slots6 .., hcsc (w 0), hcsc (w 1), hcsc (w 2), hcsc (w 3), hdec, ?_, ?_, ?_, ?_, ?_⟩
  · rw [afterSuccess_z, afterSuccess_z, slots1_zero, slots4_zero]
  · rw [afterSuccess_z, afterSuccess_z, slots1_zero, slots4_one]
  · rw [afterSuccess_z, afterSuccess_z, slots1_zero, slots4_two]
  · rw [afterSuccess_z, afterSuccess_z, slots1_zero, slots4_three]
  · simp [hfault]

end Sys2Proof.Proofs
end

section
/-!
Every command's datapath step (R29, R252, R253): it ends in success or in a fault that R252 lists for the command, and
it reads no operand slot but those of its row of R88.
-/

namespace Sys2Proof.Proofs

open Sys2Proof.Machine Sys2Proof.Claims Sys2Proof.Laws

/-! ### How each command ends -/

/-- A datapath step of the command ends in success, or in a fault of its row of R252. -/
def EndsAsListed (i : Instr) (s : State) : Prop :=
  (∃ z, exec i s = .next (afterSuccess s z)) ∨
    ∃ c info, exec i s = .next (afterFault s c info) ∧ info < 16 ∧ mayRaise i c info = true

theorem EndsAsListed.of_success {i : Instr} {s : State} {z : Slots} (h : exec i s = .next (afterSuccess s z)) :
    EndsAsListed i s := .inl ⟨z, h⟩

theorem EndsAsListed.of_fault {i : Instr} {s : State} {c : Cause} {info : Nat}
    (h : exec i s = .next (afterFault s c info)) (hinfo : info < 16) (hlist : mayRaise i c info = true) :
    EndsAsListed i s := .inr ⟨c, info, h, hinfo, hlist⟩

/-- A property holds of every index, or there is a first one where it fails. -/
theorem forall_or_first_failing {n : Nat} (p : Fin n → Prop) : (∀ j, p j) ∨ ∃ j, ¬ p j ∧ ∀ k, k < j → p k := by
  by_cases h : ∀ j, p j
  · exact .inl h
  · obtain ⟨j, hj, hmin⟩ := WellFounded.has_min wellFounded_lt {j | ¬ p j} (not_forall.mp h)
    exact .inr ⟨j, hj, fun k hk => not_not.mp fun hp => hmin k hp hk⟩

theorem endsAsListed_blkFwd (s : State) : EndsAsListed .blkFwd s := by
  obtain ⟨-, blk⟩ := blkFwdAveragesChroma
  obtain ⟨ok, raisePb, raisePr⟩ := blk s
  by_cases hb : (4 : Int) ∣ s.a[1].toInt + s.a[4].toInt + s.a[7].toInt + s.a[10].toInt
  · by_cases hr : (4 : Int) ∣ s.a[2].toInt + s.a[5].toInt + s.a[8].toInt + s.a[11].toInt
    · obtain ⟨pb, pr, h, -⟩ := ok hb hr
      exact .of_success h
    · exact .of_fault (raisePr hb hr) (by decide) rfl
  · exact .of_fault (raisePb hb) (by decide) rfl

theorem endsAsListed_dctFwd (s : State) : EndsAsListed .dctFwd s := by
  obtain ⟨-, dct⟩ := dctFwdWritesQuarterSums
  obtain ⟨ok, raise⟩ := dct s
  rcases forall_or_first_failing fun j : Fin 4 => (4 : Int) ∣ (forwardSums s.a)[j] with h | ⟨j, hj, hbefore⟩
  · obtain ⟨z0, z1, z2, z3, hexec, -⟩ := ok h
    exact .of_success hexec
  · exact .of_fault (raise j hj hbefore) (by omega) (by simp [mayRaise]; omega)

theorem endsAsListed_dctInv (s : State) : EndsAsListed .dctInv s := by
  obtain ⟨-, dct⟩ := dctInvWritesSums
  obtain ⟨ok, raise⟩ := dct s
  rcases forall_or_first_failing fun j : Fin 4 =>
    -0x8000000000000000 ≤ (inverseSums s.a)[j] ∧ (inverseSums s.a)[j] ≤ 0x7FFFFFFFFFFFFFFF with h | ⟨j, hj, hbefore⟩
  · obtain ⟨z0, z1, z2, z3, hexec, -⟩ := ok h
    exact .of_success hexec
  · exact .of_fault (raise j hj hbefore) (by omega) (by simp [mayRaise]; omega)

theorem endsAsListed_cwPack (s : State) : EndsAsListed .cwPack s := by
  rcases forall_or_first_failing fun k : Fin 6 => (fieldsFit (operandFields s.a))[k] = true with h | ⟨k, hk, hbefore⟩
  · exact .of_success (exec_cwPack_of_fits rfl h)
  · have hexec : exec .cwPack s = .next (afterFault s .overflow k) := by
      rw [exec_cwPack, cwPack_of_first_unfit (Bool.eq_false_of_not_eq_true hk) hbefore]
      exact settle_raiseFault _ _ s
    exact .of_fault hexec (by omega) (by simp [mayRaise]; omega)

/-- A command that settles an answer under a contract: CONTRACT(0), or the end of that answer. -/
theorem endsAsListed_contract {i : Instr} {s : State} {w l : Nat} {r : Except Raise Word}
    (hexec : exec i s = settle (withContract (contractOk w l) r) s) (hlist : mayRaise i .contract 0 = true)
    (hr : (∃ v, r = .ok v) ∨ ∃ c info, r = raiseFault c info ∧ info < 16 ∧ mayRaise i c info = true) :
    EndsAsListed i s := by
  by_cases h : w ≤ 64 ∧ w + l ≤ 64
  · rcases hr with ⟨v, rfl⟩ | ⟨c, info, rfl, hinfo, hrow⟩
    · exact .of_success (hexec.trans (settle_contract_ok s h.1 h.2 v))
    · exact .of_fault (hexec.trans (settle_contract_raise s h.1 h.2 c info)) hinfo hrow
  · exact .of_fault (hexec.trans (settle_contract_fails s (by omega) r)) (by decide) hlist

theorem exec_endsAsListed (i : Instr) (s : State) : EndsAsListed i s := by
  cases i with
  | nop => exact .of_success (exec_nop s)
  | cscFwd => exact .of_success (exec_cscFwd s)
  | cscInv => exact .of_success (exec_cscInv s)
  | blkFwd => exact endsAsListed_blkFwd s
  | blkInv => exact .of_success (exec_blkInv s)
  | dctFwd => exact endsAsListed_dctFwd s
  | dctInv => exact endsAsListed_dctInv s
  | qa => exact .of_success (exec_qa s)
  | qbcd => exact .of_success (exec_qbcd s)
  | qc => exact .of_success (exec_qc s)
  | dqa => exact .of_success (exec_dqa s)
  | dqbcd => exact .of_success (exec_dqbcd s)
  | dqc => exact .of_success (exec_dqc s)
  | fitsu w => exact endsAsListed_contract (exec_fitsu w s) rfl (.inl ⟨_, rfl⟩)
  | fitss w => exact endsAsListed_contract (exec_fitss w s) rfl (.inl ⟨_, rfl⟩)
  | getu w l => exact endsAsListed_contract (exec_getu w l s) rfl (.inl ⟨_, rfl⟩)
  | gets w l => exact endsAsListed_contract (exec_gets w l s) rfl (.inl ⟨_, rfl⟩)
  | newu w l =>
    exact endsAsListed_contract (exec_newu w l s) rfl
      ((newU_cases ..).imp (fun h => ⟨_, h.1⟩) fun h => ⟨_, _, h.1, by decide, rfl⟩)
  | news w l =>
    exact endsAsListed_contract (exec_news w l s) rfl
      ((newS_cases ..).imp (fun h => ⟨_, h.1⟩) fun h => ⟨_, _, h.1, by decide, rfl⟩)
  | cwPack => exact endsAsListed_cwPack s
  | cwUnpack => exact .of_success (exec_cwUnpack s)
  | encBlock => exact .of_success (exec_encBlock s)
  | decBlock => exact .of_success (exec_decBlock s)

/-- Settles O15: both ends of a command change no register but STATUS and, on success, the result slots. -/
theorem commandsTouchOnlyResultsAndStatus : Obligations.CommandsTouchOnlyResultsAndStatus := by
  intro i s
  rcases exec_endsAsListed i s with ⟨z, h⟩ | ⟨c, info, h, hinfo, hlist⟩
  · exact ⟨_, h, rfl, rfl, rfl, rfl, rfl, rfl, rfl, .inl ⟨z, rfl⟩⟩
  · exact ⟨_, h, rfl, rfl, rfl, rfl, rfl, rfl, rfl, .inr ⟨c, info, rfl, hinfo, hlist⟩⟩

theorem operandValues_congr {i : Instr} {s1 s2 : State}
    (h : ∀ k : Fin 16, k.val < operandCount i → s1.a[k] = s2.a[k]) : operandValues i s2.a = operandValues i s1.a := by
  have hhold : operandsHold i (operandValues i s1.a) s2 = true :=
    (operandsHold_iff i _ s2).mpr ⟨operandValues_length i s1.a, fun k hk => by rw [operandValues_getElem? hk, h k hk]⟩
  exact beq_iff_eq.mp hhold

/-- Settles O52: the slots of the command's row fix what is computed, and that fixes the results or the fault. -/
theorem commandsReadOnlyNamedSlots : Obligations.CommandsReadOnlyNamedSlots := by
  intro i s1 s2 _ hslots
  obtain ⟨f, hf, hreads⟩ := exec_reads i
  have hresult : f s2.a = f s1.a := hreads _ _ (operandValues_congr hslots)
  rcases finish_success_or_fault (f s1.a) with ⟨z, hz⟩ | ⟨c, info, hc⟩
  · exact .inl ⟨z, by rw [hf, settle, hz], by rw [hf, hresult, settle, hz]⟩
  · exact .inr ⟨c, info, by rw [hf, settle, hc], by rw [hf, hresult, settle, hc]⟩

end Sys2Proof.Proofs
end

section
/-!
The steps of the two agents (R20, R28, R29, R98, R99, R284 to R287): what a turn does to the block, to the host and to
the schedule.
-/

namespace Sys2Proof.Proofs

open Sys2Proof.Machine Sys2Proof.Claims Sys2Proof.Laws

/-! ### The datapath step -/

/-- A datapath step ends in success, or records a fault the latched word can make (R252). -/
theorem datapathStep_ends (s : State) :
    (∃ z, datapathStep s = .next (afterSuccess s z)) ∨
      ∃ c info, datapathStep s = .next (afterFault s c info) ∧ info < 16 ∧ recordLegal s.latch c info = true := by
  cases hd : decode s.latch with
  | instr i =>
    rw [datapathStep_of_instr hd]
    rcases exec_endsAsListed i s with h | ⟨c, info, h, hinfo, hlist⟩
    · exact .inl h
    · exact .inr ⟨c, info, h, hinfo, by rwa [recordLegal, hd]⟩
  | illegal r => exact .inr ⟨_, _, datapathStep_of_illegal hd, by decide, by rw [recordLegal, hd]; rfl⟩

/-- A datapath step answers a next state with BUSY = 0 and leaves the agents as they are. -/
theorem datapathStep_next (s : State) :
    ∃ t, datapathStep s = .next t ∧ t.status.busy = false ∧ t.host = s.host ∧ t.schedule = s.schedule := by
  rcases datapathStep_ends s with ⟨z, h⟩ | ⟨c, info, h, -⟩ <;> exact ⟨_, h, rfl, rfl, rfl⟩

/-! ### What an accepted write does to the block -/

/-- An accepted write leaves LATCH, STATUS and the result slots, and while BUSY = 1 the operand slots too, or it latches
a command, or it is a reset. -/
theorem writeReg_cases {r : Reg} {v : Word} {s t : State} (h : writeReg r v s = .ok t) :
    (t.latch = s.latch ∧ t.status = s.status ∧ t.z = s.z ∧ (s.status.busy = true → t.a = s.a)) ∨
    (s.status.busy = false ∧ s.status.fault = false ∧
      t = { s with latch := v, status := { s.status with busy := true } }) ∨
    (r = .ctrl ∧ v.getLsbD 0 = true ∧ t = resetRun s.host.program s) := by
  cases r with
  | cmd =>
    cases hb : s.status.busy with
    | true => cases (writeReg_cmd_busy hb v).symm.trans h
    | false =>
      cases hf : s.status.fault with
      | true =>
        cases (writeReg_cmd_faulted hb hf v).symm.trans h
        exact .inl ⟨rfl, rfl, rfl, fun _ => rfl⟩
      | false =>
        cases (writeReg_cmd_idle hb hf v).symm.trans h
        exact .inr (.inl ⟨rfl, rfl, rfl⟩)
  | ctrl =>
    cases hv : v.getLsbD 0 with
    | true =>
      cases (writeReg_ctrl_one hv s).symm.trans h
      exact .inr (.inr ⟨rfl, rfl, rfl⟩)
    | false =>
      cases (writeReg_ctrl_zero hv s).symm.trans h
      exact .inl ⟨rfl, rfl, rfl, fun _ => rfl⟩
  | a i =>
    cases hb : s.status.busy with
    | true => cases (writeReg_a_busy hb i v).symm.trans h
    | false =>
      cases (writeReg_a_idle hb i v).symm.trans h
      exact .inl ⟨rfl, rfl, rfl, nofun⟩
  | status | z i =>
    cases h
    exact .inl ⟨rfl, rfl, rfl, fun _ => rfl⟩

/-! ### The host's turn -/

theorem takeTurn_host_enabled {s : State} (h : hostEnabled s = true) : takeTurn .host s = .next (hostStep s) := if_pos h

theorem takeTurn_host_disabled {s : State} (h : hostEnabled s = false) : takeTurn .host s = .next s :=
  if_neg (Bool.not_eq_true _ ▸ h)

theorem takeTurn_datapath_busy {s : State} (h : s.status.busy = true) : takeTurn .datapath s = datapathStep s :=
  if_pos h

theorem takeTurn_datapath_idle {s : State} (h : s.status.busy = false) : takeTurn .datapath s = .next s :=
  if_neg (Bool.not_eq_true _ ▸ h)

/-- The host's turn leaves LATCH, STATUS and the result slots, or it is an accepted write of CMD, or one of CTRL with
bit 0 = 1, which resets the block. -/
theorem hostTurn_cases {s t : State} (h : takeTurn .host s = .next t) :
    (t.latch = s.latch ∧ t.status = s.status ∧ t.z = s.z) ∨
    (s.status.busy = false ∧ s.status.fault = false ∧ t.status = { s.status with busy := true }) ∨
    (t.status = Status.reset ∧ blockIsReset t ∧
      ∃ v rest, s.host.program = .write (Config.base + 0x10) 8 v :: rest ∧ v.getLsbD 0 = true) := by
  cases he : hostEnabled s with
  | false =>
    obtain rfl := Host.Outcome.next.inj ((takeTurn_host_disabled he).symm.trans h)
    exact .inl ⟨rfl, rfl, rfl⟩
  | true =>
    obtain rfl := Host.Outcome.next.inj ((takeTurn_host_enabled he).symm.trans h)
    rcases hostStep_cases s with ⟨hl, hs, -, hz⟩ | ⟨r, v, rest, hp, hw⟩
    · exact .inl ⟨hl, hs, hz⟩
    · rcases writeReg_cases hw with ⟨hl, hst, hz, -⟩ | ⟨hb, hf, ht⟩ | ⟨rfl, hv, ht⟩
      · exact .inl ⟨hl, hst, hz⟩
      · exact .inr (.inl ⟨hb, hf, by rw [ht]; rfl⟩)
      · refine .inr (.inr ⟨by rw [ht]; rfl, by rw [ht]; exact blockIsReset_resetRun _ _, v, rest, hp, hv⟩)

/-! ### The invariant of STATUS -/

theorem legalState_iff_of_noFault {s : State} (hf : s.status.fault = false) :
    LegalState s ↔ s.status.cause = .none ∧ s.status.faultOpc = 0 ∧ s.status.faultInfo = 0 := by
  simp [LegalState, statusLegal, hf, and_assoc]

theorem legalState_iff_of_fault {s : State} (hf : s.status.fault = true) :
    LegalState s ↔ s.status.busy = false ∧ s.status.faultOpc = s.latch.extractLsb' 0 8 ∧
      recordLegal s.latch s.status.cause s.status.faultInfo.toNat = true := by
  simp [LegalState, statusLegal, hf, and_assoc]

theorem legalState_congr {s t : State} (hl : t.latch = s.latch) (hs : t.status = s.status) :
    LegalState t ↔ LegalState s := by
  rw [LegalState, LegalState, hl, hs]

theorem legalState_of_reset {s : State} (h : s.status = Status.reset) : LegalState s := by
  rw [legalState_iff_of_noFault (by rw [h]; rfl), h]
  exact ⟨rfl, rfl, rfl⟩

theorem legalState_afterFault {s : State} {c : Cause} {info : Nat} (hinfo : info < 16)
    (hrecord : recordLegal s.latch c info = true) : LegalState (afterFault s c info) := by
  refine (legalState_iff_of_fault rfl).mpr ⟨rfl, (opc_eq s.latch).symm, ?_⟩
  have htoNat : (BitVec.ofNat 4 info).toNat = info := Nat.mod_eq_of_lt hinfo
  exact htoNat.symm ▸ hrecord

/-- In a legal state a command runs only without a fault, and BUSY is no part of a record of 0. -/
theorem datapathTurn_keeps_legal {s t : State} (hs : LegalState s) (h : takeTurn .datapath s = .next t) :
    LegalState t := by
  cases hb : s.status.busy with
  | false =>
    obtain rfl := Host.Outcome.next.inj ((takeTurn_datapath_idle hb).symm.trans h)
    exact hs
  | true =>
    rw [takeTurn_datapath_busy hb] at h
    rcases datapathStep_ends s with ⟨z, he⟩ | ⟨c, info, he, hinfo, hrecord⟩
    · obtain rfl := Host.Outcome.next.inj (he.symm.trans h)
      cases hf : s.status.fault with
      | true => cases hb.symm.trans ((legalState_iff_of_fault hf).mp hs).1
      | false => exact (legalState_iff_of_noFault (s := afterSuccess s z) hf).mpr ((legalState_iff_of_noFault hf).mp hs)
    · obtain rfl := Host.Outcome.next.inj (he.symm.trans h)
      exact legalState_afterFault hinfo hrecord

theorem hostTurn_keeps_legal {s t : State} (hs : LegalState s) (h : takeTurn .host s = .next t) : LegalState t := by
  rcases hostTurn_cases h with ⟨hl, hst, -⟩ | ⟨-, hf, hst⟩ | ⟨hst, -⟩
  · exact (legalState_congr hl hst).mpr hs
  · have hft : t.status.fault = false := by rw [hst]; exact hf
    rw [legalState_iff_of_noFault hft, hst]
    exact (legalState_iff_of_noFault hf).mp hs
  · exact legalState_of_reset hst

theorem takeTurn_keeps_legal {tn : Turn} {s t : State} (hs : LegalState s) (h : takeTurn tn s = .next t) :
    LegalState t := by
  cases tn with
  | host => exact hostTurn_keeps_legal hs h
  | datapath => exact datapathTurn_keeps_legal hs h
  | reset next =>
    obtain rfl : externalReset next s = t := Host.Outcome.next.inj h
    exact legalState_of_reset rfl
  | resetDuringAccess => cases h

/-- Settles O14: each of the turns a step can be keeps the invariant, and it does not speak of the schedule. -/
theorem stepKeepsStatusLegal : Obligations.StepKeepsStatusLegal := by
  intro s t hs h
  rcases step_cases s t h with ⟨tn, rest, -, h⟩ | ⟨-, g, p, rfl | h | h⟩
  · exact takeTurn_keeps_legal (s := { s with schedule := rest }) hs h
  · exact hs
  · exact hostTurn_keeps_legal (s := { s with grants := g, passed := p }) hs h
  · exact datapathTurn_keeps_legal (s := { s with grants := g, passed := p }) hs h

/-- Settles O2: STATUS is 0 after reset. -/
theorem resetMeetsInvariant : Obligations.ResetMeetsInvariant := legalState_of_reset rfl

/-! ### Sticky faults -/

theorem hostTurn_of_fault {s t : State} (hf : s.status.fault = true) (h : takeTurn .host s = .next t) :
    (t.latch = s.latch ∧ t.status = s.status ∧ t.z = s.z) ∨
    (blockIsReset t ∧ ∃ v rest, s.host.program = .write (Config.base + 0x10) 8 v :: rest ∧ v.getLsbD 0 = true) := by
  rcases hostTurn_cases h with hsame | ⟨-, hnf, -⟩ | ⟨-, hreset⟩
  · exact .inl hsame
  · cases hf.symm.trans hnf
  · exact .inr hreset

theorem datapathTurn_of_fault {s t : State} (hs : LegalState s) (hf : s.status.fault = true)
    (h : takeTurn .datapath s = .next t) : t = s := by
  obtain ⟨hb, -⟩ := (legalState_iff_of_fault hf).mp hs
  exact (Host.Outcome.next.inj ((takeTurn_datapath_idle hb).symm.trans h)).symm

/-- Settles O17: with a fault the datapath has no step and CMD drops what is written, so only a reset is left. -/
theorem faultsAreStickyUntilReset : Obligations.FaultsAreStickyUntilReset := by
  intro s t hs hf h
  rcases step_cases s t h with ⟨tn, rest, hsched, h⟩ | ⟨-, g, p, rfl | h | h⟩
  · cases tn with
    | host =>
      exact (hostTurn_of_fault (s := { s with schedule := rest }) hf h).imp_right (And.imp_right .inr)
    | datapath =>
      obtain rfl := datapathTurn_of_fault (s := { s with schedule := rest }) hs hf h
      exact .inl ⟨rfl, rfl, rfl⟩
    | reset next =>
      obtain rfl : externalReset next _ = t := Host.Outcome.next.inj h
      exact .inr ⟨blockIsReset_resetRun _ _, .inl ⟨next, rest, hsched⟩⟩
    | resetDuringAccess => cases h
  · exact .inl ⟨rfl, rfl, rfl⟩
  · exact (hostTurn_of_fault (s := { s with grants := g, passed := p }) hf h).imp_right (And.imp_right .inr)
  · obtain rfl := datapathTurn_of_fault (s := { s with grants := g, passed := p }) hs hf h
    exact .inl ⟨rfl, rfl, rfl⟩

/-! ### The one turn that stops the machine -/

theorem takeTurn_next {tn : Turn} (h : tn ≠ .resetDuringAccess) (s : State) : ∃ t, takeTurn tn s = .next t := by
  cases tn with
  | host =>
    cases he : hostEnabled s with
    | true => exact ⟨_, takeTurn_host_enabled he⟩
    | false => exact ⟨_, takeTurn_host_disabled he⟩
  | datapath =>
    cases hb : s.status.busy with
    | true => exact (datapathStep_next s).imp fun _ ht => (takeTurn_datapath_busy hb).trans ht.1
    | false => exact ⟨_, takeTurn_datapath_idle hb⟩
  | reset next => exact ⟨_, rfl⟩
  | resetDuringAccess => exact absurd rfl h

theorem step_unchosen_next {s : State} (h : s.schedule = []) : ∃ t, step s = .next t := by
  have host (u : State) := takeTurn_next (tn := .host) (by decide) u
  have datapath (u : State) := takeTurn_next (tn := .datapath) (by decide) u
  rcases freeTurn_cases s with ⟨-, -, e⟩ | ⟨-, -, -, e⟩ | ⟨-, -, -, e⟩ | ⟨-, -, e⟩ | ⟨-, -, e⟩
  · exact step_free h e ▸ datapath _
  · exact step_free h e ▸ datapath _
  · exact step_free h e ▸ host _
  · exact step_free h e ▸ host _
  · exact ⟨_, step_idle h e⟩

/-- Settles O18: every other turn answers a next state, a datapath step included. -/
theorem onlyResetInsideAccessIsStuck : Obligations.OnlyResetInsideAccessIsStuck := by
  refine fun s => ⟨fun ⟨rest, hs⟩ => step_chosen hs, fun hnot => ?_⟩
  cases hs : s.schedule with
  | nil => exact step_unchosen_next hs
  | cons tn rest =>
    rw [step_chosen hs]
    exact takeTurn_next (fun htn => hnot ⟨rest, htn ▸ hs⟩) _

end Sys2Proof.Proofs
end

section
/-! The host's operations (R50 to R53, R98, R99, R285, R286), and what a run shows at its end (R258, R291). -/

namespace Sys2Proof.Proofs

open Sys2Proof.Machine Sys2Proof.Claims Sys2Proof.Laws

/-! ### The operation at the head of the program -/

theorem takeTurn_host_of_program {s : State} {op : HostOp} {rest : List HostOp} (hm : s.host.mode = .running)
    (hp : s.host.program = op :: rest) : takeTurn .host s = .next (hostStep s) :=
  takeTurn_host_enabled (hostEnabled_of hm hp)

theorem hostStep_read {s : State} {addr bytes : Nat} {rest : List HostOp}
    (hp : s.host.program = .read addr bytes :: rest) : hostStep s = hostReadAt addr bytes (setProgram rest s) := by
  rw [hostStep, hp]

theorem hostStep_write {s : State} {addr bytes : Nat} {v : Word} {rest : List HostOp}
    (hp : s.host.program = .write addr bytes v :: rest) :
    hostStep s = hostWriteAt addr bytes v (setProgram rest s) := by
  rw [hostStep, hp]

theorem hostStep_poll_busy {s : State} {rest : List HostOp} (hp : s.host.program = .poll :: rest)
    (hb : s.status.busy = true) : hostStep s = hostRead .status s := by
  rw [hostStep, hp]
  exact if_pos hb

theorem hostStep_poll_idle {s : State} {rest : List HostOp} (hp : s.host.program = .poll :: rest)
    (hb : s.status.busy = false) : hostStep s = hostRead .status (setProgram rest s) := by
  rw [hostStep, hp]
  exact if_neg (Bool.not_eq_true _ ▸ hb)

theorem hostStep_check_faulted {s : State} {rest : List HostOp} (hp : s.host.program = .check :: rest)
    (hf : s.status.fault = true) : hostStep s = failHost (hostRead .status (setProgram rest s)) := by
  rw [hostStep, hp]
  exact if_pos hf

theorem hostStep_check_passed {s : State} {rest : List HostOp} (hp : s.host.program = .check :: rest)
    (hf : s.status.fault = false) : hostStep s = hostRead .status (setProgram rest s) := by
  rw [hostStep, hp]
  exact if_neg (Bool.not_eq_true _ ▸ hf)

theorem hostReadAt_regAddr (r : Reg) (s : State) : hostReadAt (regAddr r) 8 s = hostRead r s := by
  rw [hostReadAt, accessReg_regAddr]

theorem hostReadAt_of_error {addr bytes : Nat} {why : RefusedAccess} (h : accessReg addr bytes = .error why)
    (s : State) : hostReadAt addr bytes s = refuseHost why s := by
  rw [hostReadAt, h]

theorem hostWriteAt_of_error {addr bytes : Nat} {why : RefusedAccess} (h : accessReg addr bytes = .error why) (v : Word)
    (s : State) : hostWriteAt addr bytes v s = refuseHost why s := by
  rw [hostWriteAt, h]

theorem hostWriteAt_of_ok {r : Reg} {v : Word} {s t : State} (h : writeReg r v s = .ok t) :
    hostWriteAt (regAddr r) 8 v s = t := by
  rw [hostWriteAt, accessReg_regAddr]
  simp only [h]

theorem hostWriteAt_of_refused {r : Reg} {v : Word} {s : State} {why : RefusedAccess}
    (h : writeReg r v s = .error why) : hostWriteAt (regAddr r) 8 v s = refuseHost why s := by
  rw [hostWriteAt, accessReg_regAddr]
  simp only [h]

/-! ### The block's registers after a turn of the host -/

theorem sameBlock_refuseHost (why : RefusedAccess) (ops : List HostOp) (s : State) :
    sameBlock s (refuseHost why (setProgram ops s)) := ⟨rfl, rfl, rfl, rfl⟩

theorem sameBlock_hostRead (r : Reg) (s : State) : sameBlock s (hostRead r s) :=
  ⟨hostRead_latch r s, hostRead_status r s, hostRead_a r s, hostRead_z r s⟩

theorem sameBlock_hostRead_setProgram (r : Reg) (ops : List HostOp) (s : State) :
    sameBlock s (hostRead r (setProgram ops s)) := sameBlock_hostRead r (setProgram ops s)

theorem sameBlock_failHost_hostRead (r : Reg) (ops : List HostOp) (s : State) :
    sameBlock s (failHost (hostRead r (setProgram ops s))) := sameBlock_hostRead r (setProgram ops s)

/-! ### Accesses -/

theorem regAddr_eq (r : Reg) : regAddr r = Config.base + offsetOf r := by cases r <;> rfl

/-- Settles O8: the address is that of the register, so the turn is its write or its read. -/
theorem hostTurnReachesNamedRegister : Obligations.HostTurnReachesNamedRegister := by
  intro s r v rest hm
  have hbase : Config.base % 512 = 0 := Nat.mul_mod_right 512 _
  rw [← regAddr_eq]
  refine ⟨hbase, rfl, rfl, fun hp => ?_, fun hp => ?_⟩
  · refine ⟨_, takeTurn_host_of_program hm hp, fun u hu => ?_, fun why hwhy => ?_⟩
    · rw [hostStep_write hp, hostWriteAt_of_ok hu]
    · rw [hostStep_write hp, hostWriteAt_of_refused hwhy]
      exact ⟨rfl, sameBlock_refuseHost why rest s, rfl, rfl⟩
  · refine ⟨_, takeTurn_host_of_program hm hp, ?_⟩
    rw [hostStep_read hp, hostReadAt_regAddr, hostRead_host, readReg_setProgram]
    exact ⟨sameBlock_hostRead_setProgram r rest s, hm, rfl, rfl⟩

/-- The mapped offsets of R51, as ranges. -/
theorem regOffset_mapped (r : Reg) :
    regOffset r ≤ 0x10 ∨ 0x80 ≤ regOffset r ∧ regOffset r ≤ 0xF8 ∨ 0x100 ≤ regOffset r ∧ regOffset r ≤ 0x178 := by
  cases r with
  | cmd | status | ctrl => decide
  | a i | z i =>
    have := i.isLt
    simp only [regOffset]
    omega

theorem accessReg_of_unmapped {addr bytes : Nat}
    (h : ¬ (bytes = 8 ∧ ∃ off, addr = Config.base + off ∧ off % 8 = 0 ∧
      (off ≤ 0x10 ∨ 0x80 ≤ off ∧ off ≤ 0xF8 ∨ 0x100 ≤ off ∧ off ≤ 0x178))) :
    ∃ why, accessReg addr bytes = .error why := by
  cases ha : accessReg addr bytes with
  | error why => exact ⟨why, rfl⟩
  | ok r =>
    obtain ⟨rfl, rfl⟩ := accessReg_eq_ok addr bytes r ha
    exact absurd ⟨rfl, regOffset r, rfl, (regOffset_aligned r).2, regOffset_mapped r⟩ h

/-- Settles O9: an access that is refused is refused before any register is touched. -/
theorem badAccessesAreRefused : Obligations.BadAccessesAreRefused := by
  intro s addr bytes v rest hm hbad hp
  obtain ⟨why, hwhy⟩ := accessReg_of_unmapped hbad
  rcases hp with hp | hp
  · refine ⟨_, why, takeTurn_host_of_program hm hp, ?_⟩
    rw [hostStep_read hp, hostReadAt_of_error hwhy]
    exact ⟨rfl, sameBlock_refuseHost why rest s, rfl⟩
  · refine ⟨_, why, takeTurn_host_of_program hm hp, ?_⟩
    rw [hostStep_write hp, hostWriteAt_of_error hwhy]
    exact ⟨rfl, sameBlock_refuseHost why rest s, rfl⟩

theorem hostEnabled_of_refused {s : State} {why : RefusedAccess} (h : s.host.mode = .refused why) :
    hostEnabled s = false := by
  rw [hostEnabled, h]

/-- Settles O10: a refused host has no step, and where the datapath has none either nothing happens. -/
theorem refusedHostTakesNoStep : Obligations.RefusedHostTakesNoStep := by
  intro s why hm
  have he := hostEnabled_of_refused hm
  refine ⟨takeTurn_host_disabled he, fun hb hsched => step_idle hsched ?_⟩
  simp [freeTurn, hb, he]

theorem readReg_status_busy (s : State) : (readReg .status s).getLsbD 0 = s.status.busy := statusWord_busy s.status

theorem readReg_status_fault (s : State) : (readReg .status s).getLsbD 1 = s.status.fault := statusWord_fault s.status

/-- Settles O11: bits 0 and 1 of the value read are BUSY and FAULT (R25). -/
theorem pollAndCheckFollowStatus : Obligations.PollAndCheckFollowStatus := by
  intro s rest hm
  rw [readReg_status_busy, readReg_status_fault]
  refine ⟨fun hp => ⟨_, takeTurn_host_of_program hm hp, ?_⟩, fun hp => ⟨_, takeTurn_host_of_program hm hp, ?_⟩⟩
  · cases hb : s.status.busy with
    | true =>
      rw [hostStep_poll_busy hp hb, hostRead_host]
      exact ⟨sameBlock_hostRead .status s, hm, rfl, hp⟩
    | false =>
      rw [hostStep_poll_idle hp hb, hostRead_host]
      exact ⟨sameBlock_hostRead_setProgram .status rest s, hm, rfl, rfl⟩
  · cases hf : s.status.fault with
    | true =>
      rw [hostStep_check_faulted hp hf, failHost_host, hostRead_host]
      exact ⟨sameBlock_failHost_hostRead .status rest s, rfl, rfl, rfl⟩
    | false =>
      rw [hostStep_check_passed hp hf, hostRead_host]
      exact ⟨sameBlock_hostRead_setProgram .status rest s, rfl, hm, rfl⟩

/-! ### Reset and reads -/

/-- Settles O3: both sources are the reset that begins a run, with the program the turn names or the host's own. -/
theorem bothResetSourcesClearBlock : Obligations.BothResetSourcesClearBlock := fun s =>
  ⟨fun next => ⟨_, rfl, blockIsReset_resetRun next s, rfl, rfl, rfl, rfl⟩,
    fun _ hv => ⟨_, writeReg_ctrl_one hv s, blockIsReset_resetRun _ s, rfl, rfl, rfl, rfl, rfl⟩⟩

theorem codeOf_eq_causeCode (c : Cause) : codeOf c = causeCode c := by cases c <;> rfl

/-- The fields of STATUS do not overlap (R25). -/
theorem statusWord_toNat (st : Status) :
    (statusWord st).toNat =
      (if st.busy then 1 else 0) + (if st.fault then 2 else 0) + codeOf st.cause * 16 + st.faultOpc.toNat * 256
        + st.faultInfo.toNat * 65536 := by
  have hopc := st.faultOpc.isLt
  have hinfo := st.faultInfo.isLt
  have hcause := causeCode_le st.cause
  rw [statusWord, BitVec.toNat_ofNat, codeOf_eq_causeCode]
  cases st.busy <;> cases st.fault <;> simp <;> omega

/-- Settles O7: one equation of the read or the write for each register. -/
theorem readsAndIgnoredWrites : Obligations.ReadsAndIgnoredWrites := by
  refine fun s i v => ⟨rfl, statusWord_toNat s.status, fun hb => ?_, fun hb => ?_, rfl, rfl⟩
  · exact ⟨if_neg (Bool.not_eq_true _ ▸ hb), if_neg (Bool.not_eq_true _ ▸ hb)⟩
  · exact ⟨if_pos hb, if_pos hb⟩

/-! ### The free choice -/

section FreeChoice

variable {s : State} (hsched : s.schedule = [])

include hsched

theorem step_datapath_alone (hb : s.status.busy = true) (he : hostEnabled s = false) : step s = datapathStep s := by
  rw [step_free (tn := .datapath) (u := s) hsched (by simp [freeTurn, hb, he]), takeTurn_datapath_busy hb]

theorem step_host_alone (hb : s.status.busy = false) (he : hostEnabled s = true) : step s = .next (hostStep s) := by
  rw [step_free (tn := .host) (u := s) hsched (by simp [freeTurn, hb, he]), takeTurn_host_enabled he]

theorem step_datapath_chosen (hb : s.status.busy = true) (he : hostEnabled s = true)
    (hl : Config.latency s.grants ≤ s.passed) :
    step s = datapathStep { s with grants := s.grants + 1, passed := 0 } := by
  rw [step_free (tn := .datapath) (u := { s with grants := s.grants + 1, passed := 0 }) hsched
    (by simp [freeTurn, hb, he, hl])]
  exact takeTurn_datapath_busy hb

theorem step_host_chosen (hb : s.status.busy = true) (he : hostEnabled s = true)
    (hl : ¬ Config.latency s.grants ≤ s.passed) : step s = .next (hostStep { s with passed := s.passed + 1 }) := by
  rw [step_free (tn := .host) (u := { s with passed := s.passed + 1 }) hsched (by simp [freeTurn, hb, he, hl])]
  exact takeTurn_host_enabled he

end FreeChoice

/-- Settles O12: the datapath's turn is `exec` of the latched command, and the schedule or the free choice gives it. -/
theorem stepRunsDecodedCommand : Obligations.StepRunsDecodedCommand := by
  refine fun s i hb hd => ⟨fun rest hsched => ?_, fun hsched he => ?_, fun hsched he => ?_⟩
  · rw [step_chosen hsched]
    exact (takeTurn_datapath_busy (s := { s with schedule := rest }) hb).trans
      (datapathStep_of_instr (s := { s with schedule := rest }) hd)
  · rw [step_datapath_alone hsched hb he, datapathStep_of_instr hd]
  · split
    · next hl =>
      rw [step_datapath_chosen hsched hb he hl]
      exact datapathStep_of_instr hd
    · next hl => exact step_host_chosen hsched hb he hl

/-! ### The end of a run -/

theorem runOver_iff (s : State) :
    runOver s = true ↔ s.status.busy = false ∧ (s.status.fault = true ∨ s.host.program = []) := by
  simp [runOver]

theorem hostRefused_iff (s : State) : hostRefused s = true ↔ ∃ why, s.host.mode = .refused why := by
  unfold hostRefused
  split <;> simp_all

theorem observation_eq_none {s : State} (h : hostRefused s = true ∨ runOver s = false) : observation s = none := by
  rw [observation, if_pos (by simpa using h)]

theorem observation_eq_some {s : State} (hr : hostRefused s = false) (ho : runOver s = true) :
    observation s = some { reads := s.host.reads, status := readReg .status s, a := s.a, z := s.z } := by
  rw [observation, hr, ho]
  rfl

theorem runFailed_of_over {s : State} (h : runOver s = true) : runFailed s = s.status.fault := by
  rw [runFailed, h, Bool.true_and]

theorem runFailed_of_not_over {s : State} (h : runOver s = false) : runFailed s = false := by
  rw [runFailed, h, Bool.false_and]

/-- A run that has faulted is over and has failed (R258). -/
theorem over_and_failed_of_fault {s : State} (hb : s.status.busy = false) (hf : s.status.fault = true) :
    runOver s = true ∧ runFailed s = true := by
  have ho := (runOver_iff s).mpr ⟨hb, .inl hf⟩
  exact ⟨ho, (runFailed_of_over ho).trans hf⟩

theorem not_over_of_busy_or_unfinished {s : State}
    (h : s.status.busy = true ∨ s.host.program ≠ [] ∧ s.status.fault = false) : runOver s = false := by
  rw [← Bool.not_eq_true, runOver_iff]
  rintro ⟨hb, hdone⟩
  rcases h with hb' | ⟨hp, hf⟩
  · simp [hb] at hb'
  · simp [hp, hf] at hdone

/-- Settles O55: BUSY, FAULT and the operations left decide whether the run is over, and the mark whether it is seen. -/
theorem observationAtEndOfRun : Obligations.ObservationAtEndOfRun := by
  refine ⟨fun s => ⟨fun h => ?_, over_and_failed_of_fault, fun hb hp => ?_, fun h => ?_, fun hmode hb hdone => ?_⟩,
    fun s t ht hf => ?_, fun s t ht => ?_, fun s v rest hm hp hv => ?_⟩
  · have ho := not_over_of_busy_or_unfinished h
    exact ⟨ho, observation_eq_none (.inr ho), runFailed_of_not_over ho⟩
  · have ho := (runOver_iff s).mpr ⟨hb, .inr hp⟩
    exact ⟨ho, runFailed_of_over ho⟩
  · exact observation_eq_none (.inl ((hostRefused_iff s).mpr h))
  · have hr : hostRefused s = false := by simpa [← Bool.not_eq_true, hostRefused_iff] using hmode
    exact observation_eq_some hr ((runOver_iff s).mpr ⟨hb, hdone.symm⟩)
  · obtain ⟨u, hu, hb, -⟩ := datapathStep_next s
    obtain rfl := Host.Outcome.next.inj (hu.symm.trans ht)
    exact over_and_failed_of_fault hb hf
  · obtain rfl : externalReset [] s = t := Host.Outcome.next.inj ht
    rw [observation_eq_some rfl rfl, show readReg .status (externalReset [] s) = 0 from statusWord_reset]
    rfl
  · refine ⟨_, takeTurn_host_of_program hm hp, ?_⟩
    have hwrite : hostStep s = resetRun rest (setProgram rest s) := by
      rw [hostStep_write hp]
      exact hostWriteAt_of_ok (r := .ctrl) (writeReg_ctrl_one hv _)
    rw [hwrite]
    exact ⟨blockIsReset_resetRun _ _, rfl⟩

end Sys2Proof.Proofs
end

section
/-!
Weak fairness to the datapath (R287 of spec/70_reset_and_hazards.md): the turns before the datapath step of a launched
command are counted, and a poll loop reads STATUS once for each of them.
-/

namespace Sys2Proof.Proofs

open Sys2Proof.Machine Sys2Proof.Claims Sys2Proof.Laws

/-! ### Runs of steps -/

theorem after_succ {s t : State} (h : step s = .next t) (n : Nat) : after (n + 1) s = after n t := by
  rw [after, h]

theorem sameBlock_refl (s : State) : sameBlock s s := ⟨rfl, rfl, rfl, rfl⟩

theorem sameBlock_trans {s t u : State} (h : sameBlock s t) (g : sameBlock t u) : sameBlock s u := by
  obtain ⟨h1, h2, h3, h4⟩ := h
  obtain ⟨g1, g2, g3, g4⟩ := g
  exact ⟨g1.trans h1, g2.trans h2, g3.trans h3, g4.trans h4⟩

theorem sameBlock_status {s t : State} (h : sameBlock s t) : t.status = s.status := h.2.1

/-! ### One step of a busy block -/

/-- The step that ends the command: its datapath step, or a reset of the block. -/
def StepEndsCommand (s : State) : Prop :=
  ∃ u, step s = .next u ∧ u.status.busy = false ∧ (blockIsReset u ∨ ∃ v, sameBlock s v ∧ datapathStep v = .next u)

theorem stepEndsCommand_of_datapath {s v : State} (hstep : step s = datapathStep v) (hv : sameBlock s v) :
    StepEndsCommand s := by
  obtain ⟨u, hu, hb, -⟩ := datapathStep_next v
  exact ⟨u, hstep.trans hu, hb, .inr ⟨v, hv, hu⟩⟩

/-- How many turns of the host may still come before the datapath's: those chosen and those of the free choice. -/
def turnsLeft (s : State) : Nat := s.schedule.length + (Config.latency s.grants - s.passed)

/-- While BUSY = 1 a write of CMD or of an operand slot is refused (R285), so its step keeps or resets the block. -/
theorem hostStep_busy {s : State} (hb : s.status.busy = true) :
    sameBlock s (hostStep s) ∨ (blockIsReset (hostStep s) ∧ (hostStep s).status.busy = false) := by
  rcases hostStep_cases s with h | ⟨r, v, rest, -, hw⟩
  · exact .inl h
  · rcases writeReg_cases hw with ⟨hl, hst, hz, ha⟩ | ⟨hidle, -⟩ | ⟨-, -, ht⟩
    · exact .inl ⟨hl, hst, ha hb, hz⟩
    · cases hb.symm.trans hidle
    · rw [ht]
      exact .inr ⟨blockIsReset_resetRun _ _, rfl⟩

/-- A host's turn leaves the schedule and the free choice as they are. -/
theorem turnsLeft_hostStep (s : State) : turnsLeft (hostStep s) = turnsLeft s := by
  obtain ⟨hsched, hgrants, hpassed⟩ := hostStep_turns s
  rw [turnsLeft, turnsLeft, hsched, hgrants, hpassed]

/-- The step leaves the block as it is, spends a turn and chooses no new one. -/
def StepSpendsTurn (s : State) : Prop :=
  ∃ t, step s = .next t ∧ sameBlock s t ∧ turnsLeft t < turnsLeft s ∧ ∀ tn ∈ t.schedule, tn ∈ s.schedule

/-- A host's turn from a busy state `u` that differs from `s` by the turn spent. -/
theorem step_busy_of_hostTurn {s u : State} (hstep : step s = takeTurn .host u) (hb : u.status.busy = true)
    (hsame : sameBlock s u) (hlt : turnsLeft u < turnsLeft s) (hsub : ∀ tn ∈ u.schedule, tn ∈ s.schedule) :
    StepEndsCommand s ∨ StepSpendsTurn s := by
  cases he : hostEnabled u with
  | false => exact .inr ⟨u, hstep.trans (takeTurn_host_disabled he), hsame, hlt, hsub⟩
  | true =>
    have hnext := hstep.trans (takeTurn_host_enabled he)
    rcases hostStep_busy hb with hblock | ⟨hreset, hidle⟩
    · refine .inr ⟨_, hnext, sameBlock_trans hsame hblock, (turnsLeft_hostStep u).trans_lt hlt, ?_⟩
      rwa [(hostStep_turns u).1]
    · exact .inl ⟨_, hnext, hidle, .inl hreset⟩

theorem step_busy {s : State} (hb : s.status.busy = true) (hstuck : ∀ tn ∈ s.schedule, tn ≠ .resetDuringAccess) :
    StepEndsCommand s ∨ StepSpendsTurn s := by
  cases hsched : s.schedule with
  | cons tn rest =>
    have hstep := step_chosen hsched
    cases tn with
    | host =>
      refine step_busy_of_hostTurn hstep hb ⟨rfl, rfl, rfl, rfl⟩ ?_ fun tn htn => ?_
      · simp only [turnsLeft, hsched, List.length_cons]
        omega
      · rw [hsched]
        exact List.mem_cons_of_mem _ htn
    | datapath =>
      exact .inl (stepEndsCommand_of_datapath (hstep.trans (takeTurn_datapath_busy (by exact hb))) ⟨rfl, rfl, rfl, rfl⟩)
    | reset next => exact .inl ⟨_, hstep, rfl, .inl (blockIsReset_resetRun _ _)⟩
    | resetDuringAccess => exact absurd rfl (hstuck _ (hsched ▸ List.mem_cons_self))
  | nil =>
    cases he : hostEnabled s with
    | false => exact .inl (stepEndsCommand_of_datapath (step_datapath_alone hsched hb he) (sameBlock_refl s))
    | true =>
      by_cases hl : Config.latency s.grants ≤ s.passed
      · exact .inl (stepEndsCommand_of_datapath (step_datapath_chosen hsched hb he hl) ⟨rfl, rfl, rfl, rfl⟩)
      · have hturn := (takeTurn_host_enabled (s := { s with passed := s.passed + 1 }) he).symm
        refine step_busy_of_hostTurn ((step_host_chosen hsched hb he hl).trans hturn) hb ⟨rfl, rfl, rfl, rfl⟩ ?_
          fun _ htn => htn
        simp only [turnsLeft]
        omega

/-- The steps that spend a turn are followed by the one that ends the command, as the turns left are finitely many. -/
theorem command_ends {s : State} (hb : s.status.busy = true) (hstuck : ∀ tn ∈ s.schedule, tn ≠ .resetDuringAccess) :
    ∃ n ≤ turnsLeft s, ∃ t, after n s = some t ∧ sameBlock s t ∧ StepEndsCommand t := by
  rcases step_busy hb hstuck with h | ⟨t, hstep, hsame, hlt, hsub⟩
  · exact ⟨0, Nat.zero_le _, s, rfl, sameBlock_refl s, h⟩
  · have hbt : t.status.busy = true := sameBlock_status hsame ▸ hb
    obtain ⟨n, hn, u, hu, hblock, hend⟩ := command_ends hbt fun tn htn => hstuck tn (hsub tn htn)
    exact ⟨n + 1, hn.trans_lt hlt, u, (after_succ hstep n).trans hu, sameBlock_trans hsame hblock, hend⟩
termination_by turnsLeft s

/-- Settles O53: every step before it spends one of the turns left. -/
theorem datapathStepHappens : Obligations.DatapathStepHappens := by
  intro s hb hstuck
  obtain ⟨n, hn, t, ht, hsame, u, hu, hidle, hend⟩ := command_ends hb hstuck
  exact ⟨n, hn, t, u, ht, hsame, hu, hidle, hend⟩

/-! ### A poll loop -/

theorem readReg_status_congr {s t : State} (h : sameBlock s t) : readReg .status t = readReg .status s :=
  congrArg statusWord (sameBlock_status h)

/-- The host polls, with no turn chosen. -/
structure Polling (s : State) (rest : List HostOp) : Prop where
  noTurn : s.schedule = []
  running : s.host.mode = .running
  atPoll : s.host.program = .poll :: rest

theorem Polling.enabled {s : State} {rest : List HostOp} (h : Polling s rest) : hostEnabled s = true :=
  hostEnabled_of h.running h.atPoll

/-- With BUSY = 0 the host reads STATUS and goes on. -/
theorem Polling.step_idle {s : State} {rest : List HostOp} (h : Polling s rest) (hb : s.status.busy = false) :
    ∃ t, step s = .next t ∧ sameBlock s t ∧
      t.host = { program := rest, reads := s.host.reads ++ [readReg .status t], mode := .running } := by
  refine ⟨_, step_host_alone h.noTurn hb h.enabled, ?_⟩
  have hsame := sameBlock_hostRead_setProgram .status rest s
  rw [hostStep_poll_idle h.atPoll hb, readReg_status_congr hsame, hostRead_host, readReg_setProgram, setProgram_host,
    ← h.running]
  exact ⟨hsame, rfl⟩

/-- With BUSY = 1 and turns of the free choice left the host reads STATUS and polls on. -/
theorem Polling.step_busy {s : State} {rest : List HostOp} (h : Polling s rest) (hb : s.status.busy = true)
    (hl : ¬ Config.latency s.grants ≤ s.passed) :
    ∃ t, step s = .next t ∧ sameBlock s t ∧ Polling t rest ∧ t.host.reads = s.host.reads ++ [readReg .status s] ∧
      t.grants = s.grants ∧ t.passed = s.passed + 1 := by
  refine ⟨_, step_host_chosen h.noTurn hb h.enabled hl, ?_⟩
  rw [hostStep_poll_busy (s := { s with passed := s.passed + 1 }) h.atPoll hb]
  exact ⟨sameBlock_hostRead .status _, ⟨h.noTurn, h.running, h.atPoll⟩, rfl, rfl, rfl⟩

/-- The loop, by the number of turns the free choice still gives the host. -/
theorem Polling.ends {s : State} {rest : List HostOp} {k : Nat} (h : Polling s rest) (hb : s.status.busy = true)
    (hk : Config.latency s.grants - s.passed = k) :
    ∃ v u t : State, sameBlock s v ∧ datapathStep v = .next u ∧ u.status.busy = false ∧ after (k + 2) s = some t ∧
      sameBlock u t ∧
      t.host = { program := rest, mode := .running
                 reads := s.host.reads ++ List.replicate k (readReg .status s) ++ [readReg .status t] } := by
  induction k generalizing s with
  | zero =>
    have hstep := step_datapath_chosen h.noTurn hb h.enabled (Nat.sub_eq_zero_iff_le.mp hk)
    obtain ⟨u, hu, hidle, hhost, hsched⟩ := datapathStep_next { s with grants := s.grants + 1, passed := 0 }
    have hpoll : Polling u rest := ⟨hsched.trans h.noTurn, hhost ▸ h.running, hhost ▸ h.atPoll⟩
    obtain ⟨t, ht, hsame, hread⟩ := hpoll.step_idle hidle
    refine ⟨{ s with grants := s.grants + 1, passed := 0 }, u, t, ⟨rfl, rfl, rfl, rfl⟩, hu, hidle, ?_, hsame, ?_⟩
    · rw [after_succ (hstep.trans hu), after_succ ht, after]
    · rw [hread, hhost, List.replicate_zero, List.append_nil]
  | succ k ih =>
    obtain ⟨s', hstep, hsame, hpoll, hreads, hgrants, hpassed⟩ := h.step_busy hb (by omega)
    obtain ⟨v, u, t, hv, hu, hidle, ht, hut, hhost⟩ :=
      ih hpoll (sameBlock_status hsame ▸ hb) (by rw [hgrants, hpassed]; omega)
    refine ⟨v, u, t, sameBlock_trans hsame hv, hu, hidle, (after_succ hstep _).trans ht, hut, ?_⟩
    rw [hhost, hreads, readReg_status_congr hsame, List.replicate_succ, List.append_assoc s.host.reads,
      List.singleton_append]

/-- Settles O54: the free choice gives the host the turns it has left, then the datapath, and then the block is idle. -/
theorem pollLoopEnds : Obligations.PollLoopEnds := by
  intro s rest hb hsched hm hp
  obtain ⟨v, u, t, hv, hu, hidle, ht, hut, hhost⟩ := Polling.ends ⟨hsched, hm, hp⟩ hb rfl
  refine ⟨v, u, t, hv, hu, ht, hut, hhost, ?_, ?_⟩
  · rw [readReg_status_busy, hb]
  · rw [readReg_status_congr hut, readReg_status_busy, hidle]

end Sys2Proof.Proofs
end
